-- ==== Sys2Proof/Word.lean ====
section
/-! DEFINITION. The word types of the block (spec R7): all values are unsigned, bit 0 is the least significant. -/

namespace Sys2Proof

/-- `u8` (R7): coordinates, lengths, samples, character codes, statuses and framebuffer bytes. -/
abbrev Byte := BitVec 8

/-- `u16` (R7): a font row word (R47) and a font table length (R26). -/
abbrev HalfWord := BitVec 16

/-- `u48` (R7, R60): one operation word on the operation port. -/
abbrev OpWord := BitVec 48

end Sys2Proof
end

