-- ==== Sys2Proof/Syntax.lean ====
section
/-! DEFINITION. The operations of the block: one constructor per row of the opcode map (R63), operands as R61 and R62 give them. -/

namespace Sys2Proof

/-- A colour is one bit (R10): ON sets a pixel, OFF clears it; WHITE is ON. -/
inductive Colour where
  | off
  | on
deriving DecidableEq, Repr, Inhabited

/-- The operand formats of R61. -/
inductive Format where
  | n     -- no field
  | k     -- `E[0]`
  | xy    -- `A`, `B`
  | xyk   -- `A`, `B`, `E[0]`
  | xylk  -- `A`, `B`, `C`, `E[0]`
  | rk    -- `A`, `B`, `C`, `D`, `E[0]`
  | ck    -- `A`, `E[0]`
  | v     -- `A`
  | f     -- `A`, `B`, `C`, `D`, `E`
deriving DecidableEq, Repr

/-- One constructor per row of the opcode map (R63), in the order of its opcodes 0x01 to 0x18. -/
inductive Instr where
  /-- 0x01 INIT (R164). -/
  | init
  /-- 0x02 UPDATE (R167). -/
  | update
  /-- 0x03 CLEAN (R92). -/
  | clean
  /-- 0x04 FILL c (R93). -/
  | fill (c : Colour)
  /-- 0x05 SET_CURSOR x, y (R131). -/
  | setCursor (x y : Byte)
  /-- 0x06 WRITE_STRING (R136). -/
  | writeString
  /-- 0x07 WRITE_STRING_INV (R137). -/
  | writeStringInv
  /-- 0x08 DRAW_PIXEL x, y, c (R111). -/
  | drawPixel (x y : Byte) (c : Colour)
  /-- 0x09 DRAW_IMAGE (R94). -/
  | drawImage
  /-- 0x0A LINE_H x, y, len, c (R112). -/
  | lineH (x y len : Byte) (c : Colour)
  /-- 0x0B LINE_V x, y, len, c (R113). -/
  | lineV (x y len : Byte) (c : Colour)
  /-- 0x0C RECT x1, y1, x2, y2, c (R114). -/
  | rect (x1 y1 x2 y2 : Byte) (c : Colour)
  /-- 0x0D WAVEFORM x, y, n, c (R115). -/
  | waveform (x y n : Byte) (c : Colour)
  /-- 0x0E DISPLAY_OFF (R168). -/
  | displayOff
  /-- 0x0F DISPLAY_ON (R169). -/
  | displayOn
  /-- 0x10 SET_BRIGHTNESS value (R170). -/
  | setBrightness (value : Byte)
  /-- 0x11 INVERT v (R171). -/
  | invert (v : Bool)
  /-- 0x12 FLIP v (R172). -/
  | flip (v : Bool)
  /-- 0x13 MIRROR v (R173). -/
  | mirror (v : Bool)
  /-- 0x14 SET_FONT gw, gh, glen, fid (R132). -/
  | setFont (gw gh : Byte) (glen : HalfWord) (fid : Byte)
  /-- 0x15 IS_INITIALIZED (R200). -/
  | isInitialized
  /-- 0x16 GET_LAST_ERROR (R201). -/
  | getLastError
  /-- 0x17 CLEAR_ERRORS (R202). -/
  | clearErrors
  /-- 0x18 WRITE_CHAR ch, c (R135). -/
  | writeChar (ch : Byte) (c : Colour)
deriving DecidableEq, Repr

/-- DRAW_SQUARE is another name of RECT (R69). -/
abbrev Instr.drawSquare (x1 y1 x2 y2 : Byte) (c : Colour) : Instr := .rect x1 y1 x2 y2 c

/-- DRAW_WHITE x, y is DRAW_PIXEL x, y, ON (R69). -/
abbrev Instr.drawWhite (x y : Byte) : Instr := .drawPixel x y .on

/-- DRAW_BLACK x, y is DRAW_PIXEL x, y, OFF (R69). -/
abbrev Instr.drawBlack (x y : Byte) : Instr := .drawPixel x y .off

end Sys2Proof
end

