-- ==== Sys2Proof/WellFormed.lean ====
section
/-! DEFINITION. Which operations lie within the block's contract as words: every operand value is legal but a glyph width above 16. -/

namespace Sys2Proof

/-- The one operand check the spec makes on an operation by itself: a font descriptor's glyph width is
at most 16 (R26, R132, D28). Every other field takes every `u8` or `u16` value (R62). -/
def Instr.wellFormed : Instr → Bool
  | .init => true
  | .update => true
  | .clean => true
  | .fill _ => true
  | .setCursor _ _ => true
  | .writeString => true
  | .writeStringInv => true
  | .drawPixel _ _ _ => true
  | .drawImage => true
  | .lineH _ _ _ _ => true
  | .lineV _ _ _ _ => true
  | .rect _ _ _ _ _ => true
  | .waveform _ _ _ _ => true
  | .displayOff => true
  | .displayOn => true
  | .setBrightness _ => true
  | .invert _ => true
  | .flip _ => true
  | .mirror _ => true
  | .setFont gw _ _ _ => decide (gw.toNat ≤ 16)
  | .isInitialized => true
  | .getLastError => true
  | .clearErrors => true
  | .writeChar _ _ => true

end Sys2Proof
end

