-- ==== Sys2Proof/Decode.lean ====
section
/-! DEFINITION. Decoding a 48-bit operation word (R60 to R66), total and rejecting reserved opcodes by name; then the encoder, from the same table. -/

namespace Sys2Proof

/-- Why a word is no operation: its opcode is reserved (R65). -/
inductive DecodeError where
  | reservedOpcode (opc : Byte)
deriving DecidableEq, Repr

/-- `OPC = w[47:40]` (R60). -/
def fieldOPC (w : OpWord) : Byte := w.extractLsb' 40 8

/-- `A = w[39:32]` (R60). -/
def fieldA (w : OpWord) : Byte := w.extractLsb' 32 8

/-- `B = w[31:24]` (R60). -/
def fieldB (w : OpWord) : Byte := w.extractLsb' 24 8

/-- `C = w[23:16]` (R60). -/
def fieldC (w : OpWord) : Byte := w.extractLsb' 16 8

/-- `D = w[15:8]` (R60). -/
def fieldD (w : OpWord) : Byte := w.extractLsb' 8 8

/-- `E = w[7:0]` (R60). -/
def fieldE (w : OpWord) : Byte := w.extractLsb' 0 8

/-- `glen = C * 256 + D`, `C` the high byte (R62). -/
def fieldGlen (w : OpWord) : HalfWord := fieldC w ++ fieldD w

/-- A boolean is true iff `E[0] = 1` (R62). -/
def fieldV (w : OpWord) : Bool := w.getLsbD 0

/-- A colour is ON iff `E[0] = 1` (R62). -/
def fieldK (w : OpWord) : Colour := if fieldV w then .on else .off

/-- The operation a word stands for (R63): `OPC` alone selects it, operands as R61 and R62; every other
opcode is reserved (R65). Ignored bits are never read (R64, R66). -/
def decode (w : OpWord) : Except DecodeError Instr :=
  if fieldOPC w = 0x01 then .ok .init
  else if fieldOPC w = 0x02 then .ok .update
  else if fieldOPC w = 0x03 then .ok .clean
  else if fieldOPC w = 0x04 then .ok (.fill (fieldK w))
  else if fieldOPC w = 0x05 then .ok (.setCursor (fieldA w) (fieldB w))
  else if fieldOPC w = 0x06 then .ok .writeString
  else if fieldOPC w = 0x07 then .ok .writeStringInv
  else if fieldOPC w = 0x08 then .ok (.drawPixel (fieldA w) (fieldB w) (fieldK w))
  else if fieldOPC w = 0x09 then .ok .drawImage
  else if fieldOPC w = 0x0A then .ok (.lineH (fieldA w) (fieldB w) (fieldC w) (fieldK w))
  else if fieldOPC w = 0x0B then .ok (.lineV (fieldA w) (fieldB w) (fieldC w) (fieldK w))
  else if fieldOPC w = 0x0C then .ok (.rect (fieldA w) (fieldB w) (fieldC w) (fieldD w) (fieldK w))
  else if fieldOPC w = 0x0D then .ok (.waveform (fieldA w) (fieldB w) (fieldC w) (fieldK w))
  else if fieldOPC w = 0x0E then .ok .displayOff
  else if fieldOPC w = 0x0F then .ok .displayOn
  else if fieldOPC w = 0x10 then .ok (.setBrightness (fieldA w))
  else if fieldOPC w = 0x11 then .ok (.invert (fieldV w))
  else if fieldOPC w = 0x12 then .ok (.flip (fieldV w))
  else if fieldOPC w = 0x13 then .ok (.mirror (fieldV w))
  else if fieldOPC w = 0x14 then .ok (.setFont (fieldA w) (fieldB w) (fieldGlen w) (fieldE w))
  else if fieldOPC w = 0x15 then .ok .isInitialized
  else if fieldOPC w = 0x16 then .ok .getLastError
  else if fieldOPC w = 0x17 then .ok .clearErrors
  else if fieldOPC w = 0x18 then .ok (.writeChar (fieldA w) (fieldK w))
  else .error (.reservedOpcode (fieldOPC w))

/-- The word `{OPC, A, B, C, D, E}` (R60, R63). -/
def packWord (opc a b c d e : Byte) : OpWord := opc ++ a ++ b ++ c ++ d ++ e

/-- The field `E` that carries a boolean: bit 0 the value, the ignored bits 0 (R62, R64). -/
def boolByte (v : Bool) : Byte := if v then 1 else 0

/-- The field `E` that carries a colour (R10, R62): 1 for ON, 0 for OFF. -/
def colourByte : Colour → Byte
  | .off => 0
  | .on => 1

/-- The high byte of a font table length, field `C` of format F (R61, R62). -/
def glenHigh (glen : HalfWord) : Byte := glen.extractLsb' 8 8

/-- The low byte of a font table length, field `D` of format F (R61, R62). -/
def glenLow (glen : HalfWord) : Byte := glen.extractLsb' 0 8

/-- The word of an operation (R60 to R63), every ignored bit written as zero (R64). -/
def encode : Instr → OpWord
  | .init => packWord 0x01 0 0 0 0 0
  | .update => packWord 0x02 0 0 0 0 0
  | .clean => packWord 0x03 0 0 0 0 0
  | .fill c => packWord 0x04 0 0 0 0 (colourByte c)
  | .setCursor x y => packWord 0x05 x y 0 0 0
  | .writeString => packWord 0x06 0 0 0 0 0
  | .writeStringInv => packWord 0x07 0 0 0 0 0
  | .drawPixel x y c => packWord 0x08 x y 0 0 (colourByte c)
  | .drawImage => packWord 0x09 0 0 0 0 0
  | .lineH x y len c => packWord 0x0A x y len 0 (colourByte c)
  | .lineV x y len c => packWord 0x0B x y len 0 (colourByte c)
  | .rect x1 y1 x2 y2 c => packWord 0x0C x1 y1 x2 y2 (colourByte c)
  | .waveform x y n c => packWord 0x0D x y n 0 (colourByte c)
  | .displayOff => packWord 0x0E 0 0 0 0 0
  | .displayOn => packWord 0x0F 0 0 0 0 0
  | .setBrightness value => packWord 0x10 value 0 0 0 0
  | .invert v => packWord 0x11 0 0 0 0 (boolByte v)
  | .flip v => packWord 0x12 0 0 0 0 (boolByte v)
  | .mirror v => packWord 0x13 0 0 0 0 (boolByte v)
  | .setFont gw gh glen fid => packWord 0x14 gw gh (glenHigh glen) (glenLow glen) fid
  | .isInitialized => packWord 0x15 0 0 0 0 0
  | .getLastError => packWord 0x16 0 0 0 0 0
  | .clearErrors => packWord 0x17 0 0 0 0 0
  | .writeChar ch c => packWord 0x18 ch 0 0 0 (colourByte c)

/-- The opcode of an operation, column `OPC` of R63. -/
def opcodeOf : Instr → Byte
  | .init => 0x01
  | .update => 0x02
  | .clean => 0x03
  | .fill _ => 0x04
  | .setCursor _ _ => 0x05
  | .writeString => 0x06
  | .writeStringInv => 0x07
  | .drawPixel _ _ _ => 0x08
  | .drawImage => 0x09
  | .lineH _ _ _ _ => 0x0A
  | .lineV _ _ _ _ => 0x0B
  | .rect _ _ _ _ _ => 0x0C
  | .waveform _ _ _ _ => 0x0D
  | .displayOff => 0x0E
  | .displayOn => 0x0F
  | .setBrightness _ => 0x10
  | .invert _ => 0x11
  | .flip _ => 0x12
  | .mirror _ => 0x13
  | .setFont _ _ _ _ => 0x14
  | .isInitialized => 0x15
  | .getLastError => 0x16
  | .clearErrors => 0x17
  | .writeChar _ _ => 0x18

/-- The operand format of an operation, column `format` of R63. -/
def formatOf : Instr → Format
  | .init => .n
  | .update => .n
  | .clean => .n
  | .fill _ => .k
  | .setCursor _ _ => .xy
  | .writeString => .n
  | .writeStringInv => .n
  | .drawPixel _ _ _ => .xyk
  | .drawImage => .n
  | .lineH _ _ _ _ => .xylk
  | .lineV _ _ _ _ => .xylk
  | .rect _ _ _ _ _ => .rk
  | .waveform _ _ _ _ => .xylk
  | .displayOff => .n
  | .displayOn => .n
  | .setBrightness _ => .v
  | .invert _ => .k
  | .flip _ => .k
  | .mirror _ => .k
  | .setFont _ _ _ _ => .f
  | .isInitialized => .n
  | .getLastError => .n
  | .clearErrors => .n
  | .writeChar _ _ => .ck

/-- The bits a format uses, the opcode among them (R61); all others are ignored (R64). -/
def formatMask : Format → OpWord
  | .n => 0xFF0000000000
  | .k => 0xFF0000000001
  | .xy => 0xFFFFFF000000
  | .xyk => 0xFFFFFF000001
  | .xylk => 0xFFFFFFFF0001
  | .rk => 0xFFFFFFFFFF01
  | .ck => 0xFFFF00000001
  | .v => 0xFFFF00000000
  | .f => 0xFFFFFFFFFFFF

/-- The operation the decoder reads from a table word: the table numbers the one 48-bit word of an
operation with bit 0 its least significant bit, and the bits above `nbits` are 0 (R60). -/
def decodeTableWord (nbits w : Nat) : Option Instr :=
  match decode (BitVec.ofNat 48 (w % 2 ^ nbits)) with
  | .ok i => some i
  | .error _ => none

end Sys2Proof
end

