-- ==== Sys2Proof/Config.lean ====
section
/-! DEFINITION. The OPEN parameters of R5 and the free values the spec leaves to a draw. None has a body: a statement about one holds for every value. -/

namespace Sys2Proof

/-- Index of `CFG_ERR` among the nonzero bytes (R5, D9); see `cfgErr`. Log 7. -/
opaque Config.cfgErrIndex : Fin 255

/-- `CFG_ERR` (R5, D9): the configuration-error sentinel, any 8-bit value but 0. Log 7. -/
def Config.cfgErr : Byte := BitVec.ofNat 8 (Config.cfgErrIndex.val + 1)

/-- `BUS_ADDR_DEFAULT` (R5, R23, D17): the bus address used when construction omits it. Log 8. -/
opaque Config.busAddrDefault : Byte

/-- `CMD_MARKER` (R5, R73, D17): the marker the TRANSPORT puts before a command; the block never emits it. Log 8. -/
opaque Config.cmdMarker : Byte

/-- `DATA_MARKER` (R5, R73, D17): the marker the TRANSPORT puts before a data block; the block never emits it. Log 8. -/
opaque Config.dataMarker : Byte

/-- `P_CLKDIV` (R5, D14): operand of INIT step 2. Log 8. -/
opaque Config.pClkdiv : Byte

/-- `P_CHARGE_PUMP` (R5, D14): operand of INIT step 6. Log 8. -/
opaque Config.pChargePump : Byte

/-- `P_CONTRAST_DEFAULT` (R5, D14): operand of INIT step 9. Log 8. -/
opaque Config.pContrastDefault : Byte

/-- `P_PRECHARGE` (R5, D14): operand of INIT step 10. Log 8. -/
opaque Config.pPrecharge : Byte

/-- `P_VCOMH` (R5, D14): operand of INIT step 11. Log 8. -/
opaque Config.pVcomh : Byte

/-- `DEFAULT_FONT.fid` (R5, R26, D23). Log 6. -/
opaque Config.defaultFontFid : Byte

/-- `DEFAULT_FONT.gw` (R5, R26, D23): at most 16, since DEFAULT_FONT is valid. Log 6. -/
opaque Config.defaultFontWidth : Fin 17

/-- `DEFAULT_FONT.gh` (R5, R26, D23). Log 6. -/
opaque Config.defaultFontHeight : Byte

/-- `DEFAULT_FONT.glen` (R5, R26, D23). Log 6. -/
opaque Config.defaultFontLength : HalfWord

/-- Free value: framebuffer byte `i` right after construction (R24, I-14). Log 3. -/
opaque Config.fbDraw : Nat → Byte

/-- Free value: the transport's status for transaction number `k` of the run (R160, I-15), where the
state does not already hold that answer. Log 4. -/
opaque Config.transportStatus : Nat → Byte

/-- Free value: row word `k` of font `fid` of the external store (R47, I-16), where the state does not
list that font. Log 5. -/
opaque Config.fontWord : Byte → Nat → HalfWord

end Sys2Proof
end

