-- ==== Sys2Proof/Machine/Flags.lean ====
section
/-! DEFINITION. The two status registers' rules: ERR (R161, R241) and INIT_OK (R165). The block has no condition codes (R29). -/

namespace Sys2Proof.Machine

/-- `Record(s)` (R161): a nonzero status replaces `ERR`, a zero status leaves it. -/
def recordStatus (err status : Byte) : Byte := if status ≠ 0 then status else err

/-- `ERR` right after construction (R241): the sentinel for a height above 64, else 0. -/
def errAfterConstruction (h : Byte) : Byte := if 64 < h.toNat then Config.cfgErr else 0

/-- `INIT_OK <- (ERR = 0)` (R164, R165). -/
def initOkAfter (err : Byte) : Bool := decide (err = 0)

/-- `zext_8(INIT_OK)` (R200): what IS_INITIALIZED drives on the result port. -/
def initOkByte (initOk : Bool) : Byte := if initOk then 0x01 else 0x00

end Sys2Proof.Machine
end

