-- ==== Sys2Proof/Machine/Memory.lean ====
section
/-! DEFINITION. The framebuffer memory as plain data: (address, byte) cells in one canonical form, and its named operations (R40, R53). -/

namespace Sys2Proof.Machine

/-- The framebuffer's bytes, as cells with strictly rising addresses and no cell equal to what an
unlisted address reads as. -/
abbrev Memory := List Host.Cell

/-- What an unlisted address reads as: the cleared byte. It is a convention of the listing only: the
reset framebuffer's drawn bytes are all written into the list (log 3). -/
def unlistedByte : Byte := 0x00

/-- `FBRead(a)` (R8): the byte at an address. -/
def Memory.read : Memory → Nat → Byte
  | [], _ => unlistedByte
  | (b, v) :: m, a => if a < b then unlistedByte else if a = b then v else Memory.read m a

/-- `FBWrite(a, v)` (R8), keeping the canonical form. -/
def Memory.write : Memory → Nat → Byte → Memory
  | [], a, v => if v = unlistedByte then [] else [(a, v)]
  | (b, w) :: m, a, v =>
    if a < b then (if v = unlistedByte then (b, w) :: m else (a, v) :: (b, w) :: m)
    else if a = b then (if v = unlistedByte then m else (a, v) :: m)
    else (b, w) :: Memory.write m a v

/-- The cells of the bytes `bs` laid at addresses `a`, `a + 1`, … -/
def Memory.cellsFrom (a : Nat) : List Byte → Memory
  | [] => []
  | v :: bs =>
    if v = unlistedByte then Memory.cellsFrom (a + 1) bs else (a, v) :: Memory.cellsFrom (a + 1) bs

/-- The whole-buffer write of R91 and R94: `FBWrite(i, bs[i])` for each `i`, in ascending order.
`Memory.load_eq_writes` (Laws) says it equals that loop. -/
def Memory.load (m : Memory) (bs : List Byte) : Memory :=
  Memory.cellsFrom 0 bs ++ m.filter fun c => decide (bs.length ≤ c.1)

/-- The bytes at addresses `0 .. n-1` in ascending order (R45). -/
def Memory.bytes (m : Memory) (n : Nat) : List Byte := (List.range n).map m.read

/-- Canonical from address `lo` on: every address at least `lo`, strictly rising, no cleared byte listed. -/
def Memory.wfFrom (lo : Nat) : Memory → Bool
  | [] => true
  | (a, v) :: m => decide (lo ≤ a) && decide (v ≠ unlistedByte) && Memory.wfFrom (a + 1) m

/-- The canonical form: equal framebuffers are equal data. -/
def Memory.wf (m : Memory) : Bool := Memory.wfFrom 0 m

/-- Every listed address is below `n`: the framebuffer has no byte at `n` or above (R54). -/
def Memory.below (m : Memory) (n : Nat) : Bool := m.all fun c => decide (c.1 < n)

end Sys2Proof.Machine
end

