-- ==== Sys2Proof/Machine/State.lean ====
section
/-! DEFINITION. The state of the block (R20) with its ports and observations (R67, R254) as plain data, the reasons a step can stop, and the state after reset. -/

namespace Sys2Proof.Machine

/-- `CFG_COM` (R22): the COM-pins hardware configuration. -/
inductive ComPins where
  | seqNoremap
  | seqRemap
  | altNoremap
  | altRemap
deriving DecidableEq, Repr, Inhabited

/-- `FONT` (R26): a font descriptor `{fid, gw, gh, glen}`. -/
structure FontDesc where
  /-- The font's name in the external store. -/
  fid : Byte
  /-- Glyph width in pixels. -/
  gw : Byte
  /-- Glyph height in pixels. -/
  gh : Byte
  /-- The font table's declared length in row words. -/
  glen : HalfWord
deriving DecidableEq, Repr, Inhabited

/-- A transaction as the block hands it over (R71): one command byte or one data block. -/
inductive Tx where
  | cmd (b : Byte)
  | data (bytes : List Byte)
deriving DecidableEq, Repr

/-- One entry of the transaction log (R254): the transaction, the bus address it carried (`CFG_ADDR`,
R23, R71) and the status the transport answered (R160). -/
structure Transaction where
  tx : Tx
  addr : Byte
  status : Byte
deriving DecidableEq, Repr

/-- A font table the host has listed in the external store (R5 `FONT_ROM`, R48): its row words. -/
structure FontTable where
  fid : Byte
  rows : List HalfWord
deriving DecidableEq, Repr

/-- What the host does on its side of the ports (R6, R255), one event at a time. -/
inductive HostEvent where
  /-- Issue an operation word with the byte stream supplied with it (R9, R67). -/
  | operation (w : OpWord) (stream : List Byte)
  /-- Change a font of the external store between operations (R57, R255). -/
  | installFont (fid : Byte) (rows : List HalfWord)
deriving DecidableEq, Repr

/-- The block has no faults: it "raises no exception, takes no trap" (R220), and every treatment of
`spec/93_implementation_defined.md` says "`fault` (not used: the block has no faults)". Log 13. -/
inductive Fault
deriving DecidableEq, Repr

/-- The inputs to which the spec gives the run no meaning (R226); each is safe, since a refused run
proves nothing about the hardware. Log 13. -/
inductive Refusal where
  /-- An arm of `exec` without a meaning; none is left. Safe. -/
  | notModelled (mnemonic : String)
  /-- Every operation that reads or writes `FB` while `CFG_H > 64` (R250, R226 (7)). Safe. -/
  | configError
  /-- SET_FONT with `gw > 16` (R132, R226 (2)). Safe. -/
  | fontTooWide
  /-- DRAW_IMAGE with fewer than `N` stream bytes (R49, R226 (3)). Safe. -/
  | imageTooShort
  /-- WAVEFORM with fewer than `n` stream bytes (R50, R255). Safe. Log 12. -/
  | samplesTooShort
  /-- WRITE_STRING or WRITE_STRING_INV with a stream that has no `0x00` (R51, R226 (4)). Safe. -/
  | stringUnterminated
  /-- WRITE_CHAR, WRITE_STRING or WRITE_STRING_INV with a font read that the store cannot answer
  (R26, R226 (6)). Safe. -/
  | fontUnanswered
  /-- Construction with height 0 or a height that is not a multiple of 8 (R241, R226 (1)). Safe. -/
  | badHeight
deriving DecidableEq, Repr

/-- The block's state (R20) and what stands at its ports. -/
structure State where
  /-- `CFG_H` (R21): the configured height. -/
  cfgH : Byte
  /-- `CFG_COM` (R22): the COM-pins configuration. -/
  cfgCom : ComPins
  /-- `CFG_ADDR` (R23): the bus address. -/
  cfgAddr : Byte
  /-- `FB` (R24): the framebuffer. -/
  fb : Memory
  /-- `CX` (R25): the text cursor's column. -/
  cx : Byte
  /-- `CY` (R25): the text cursor's row. -/
  cy : Byte
  /-- `FONT` (R26): the selected font descriptor. -/
  font : FontDesc
  /-- `ERR` (R27): the sticky last transport error. -/
  err : Byte
  /-- `INIT_OK` (R28): the initialized flag. -/
  initOk : Bool
  /-- Host events still to come, oldest first (R9, R67, R255). -/
  port : List HostEvent
  /-- Unread bytes of the current operation's stream (R67 (1)). -/
  stream : List Byte
  /-- The font tables the host has listed (R5, R67 (2)); the model's own field. Log 5. -/
  fontRom : List FontTable
  /-- Statuses already fixed for the next transactions, oldest first; the model's own field. Log 4. -/
  answers : List Byte
  /-- The transaction log, oldest first (R254). -/
  log : List Transaction
  /-- The values driven on the result port, oldest first (R67 (3), R254). -/
  results : List Byte
deriving DecidableEq, Repr

/-- `DEFAULT_FONT` (R5, R26): an OPEN descriptor, valid by its width. Log 6. -/
def defaultFont : FontDesc :=
  { fid := Config.defaultFontFid
    gw := BitVec.ofNat 8 Config.defaultFontWidth.val
    gh := Config.defaultFontHeight
    glen := Config.defaultFontLength }

/-- The framebuffer right after a construction with `n` bytes: each byte a draw (R24, I-14). Log 3. -/
def drawnFb (n : Nat) : Memory := Memory.load [] ((List.range n).map Config.fbDraw)

/-- The state after construction with a height, an orientation and a bus address (R34, R240, R241);
`construct` (Machine/Construct.lean) adds the height check. -/
def State.constructed (h : Byte) (com : ComPins) (addr : Byte) : State :=
  { cfgH := h
    cfgCom := com
    cfgAddr := addr
    fb := drawnFb (16 * h.toNat)
    cx := 0
    cy := 0
    font := defaultFont
    err := errAfterConstruction h
    initOk := false
    port := []
    stream := []
    fontRom := []
    answers := []
    log := []
    results := [] }

/-- Reset is construction (R240): height 64, orientation and address omitted (R22, R23). Log 2. -/
def State.reset : State := State.constructed 64 .altNoremap Config.busAddrDefault

end Sys2Proof.Machine
end

