-- ==== Sys2Proof/Machine/Commands.lean ====
section
/-! DEFINITION. The controller command bytes the block emits (R70) and the scripts built from them (R72, R74, R75, R76, R163). Rows the spec marks "from general knowledge" are PRESUMED, log 9. -/

namespace Sys2Proof.Machine

/-- `CB_COL_ADDR` (R70, from the source). -/
def cbColAddr : Byte := 0x21
/-- `CB_PAGE_ADDR` (R70, from the source). -/
def cbPageAddr : Byte := 0x22
/-- `CB_DISPLAY_OFF` (R70). PRESUMED, log 9. -/
def cbDisplayOff : Byte := 0xAE
/-- `CB_DISPLAY_ON` (R70). PRESUMED, log 9. -/
def cbDisplayOn : Byte := 0xAF
/-- `CB_CLOCK_DIV` (R70). PRESUMED, log 9. -/
def cbClockDiv : Byte := 0xD5
/-- `CB_MUX` (R70). PRESUMED, log 9. -/
def cbMux : Byte := 0xA8
/-- `CB_OFFSET` (R70). PRESUMED, log 9. -/
def cbOffset : Byte := 0xD3
/-- `CB_START_LINE_0` (R70). PRESUMED, log 9. -/
def cbStartLine0 : Byte := 0x40
/-- `CB_CHARGE_PUMP` (R70). PRESUMED, log 9. -/
def cbChargePump : Byte := 0x8D
/-- `CB_SEG_NORMAL` (R70). PRESUMED, log 9. -/
def cbSegNormal : Byte := 0xA0
/-- `CB_SEG_MIRROR` (R70). PRESUMED, log 9. -/
def cbSegMirror : Byte := 0xA1
/-- `CB_COMSCAN_NORMAL` (R70). PRESUMED, log 9. -/
def cbComscanNormal : Byte := 0xC0
/-- `CB_COMSCAN_FLIP` (R70). PRESUMED, log 9. -/
def cbComscanFlip : Byte := 0xC8
/-- `CB_COM_PINS` (R70). PRESUMED, log 9. -/
def cbComPins : Byte := 0xDA
/-- `CB_CONTRAST` (R70). PRESUMED, log 9. -/
def cbContrast : Byte := 0x81
/-- `CB_PRECHARGE` (R70). PRESUMED, log 9. -/
def cbPrecharge : Byte := 0xD9
/-- `CB_VCOMH` (R70). PRESUMED, log 9. -/
def cbVcomh : Byte := 0xDB
/-- `CB_RESUME_RAM` (R70). PRESUMED, log 9. -/
def cbResumeRam : Byte := 0xA4
/-- `CB_NORMAL` (R70). PRESUMED, log 9. -/
def cbNormal : Byte := 0xA6
/-- `CB_INVERSE` (R70). PRESUMED, log 9. -/
def cbInverse : Byte := 0xA7
/-- `CB_ADDR_MODE` (R70). PRESUMED, log 9. -/
def cbAddrMode : Byte := 0x20
/-- `ADDR_MODE_HORIZONTAL` (R70). PRESUMED, log 9. -/
def addrModeHorizontal : Byte := 0x00

/-- The 2-bit encoding of `CFG_COM` (R22): bit 1 alternate, bit 0 remap. -/
def comBits : ComPins → BitVec 2
  | .seqNoremap => 0
  | .seqRemap => 1
  | .altNoremap => 2
  | .altRemap => 3

/-- `COMPINS(CFG_COM) = 0x02 | (CFG_COM[1] << 4) | (CFG_COM[0] << 5)` (R72). PRESUMED, log 9. -/
def comPinsOperand (com : ComPins) : Byte :=
  0x02 ||| (((comBits com).extractLsb' 1 1).zeroExtend 8 <<< 4)
       ||| (((comBits com).extractLsb' 0 1).zeroExtend 8 <<< 5)

/-- `SEG(m)` (R74): the segment-remap byte of a mirror value. PRESUMED, log 9. -/
def segByte (m : Bool) : Byte := if m then cbSegMirror else cbSegNormal

/-- `COM(f)` (R74): the COM-scan byte of a flip value. PRESUMED, log 9. -/
def comByte (f : Bool) : Byte := if f then cbComscanFlip else cbComscanNormal

/-- The byte of an inversion value (R171). PRESUMED, log 9. -/
def inversionByte (v : Bool) : Byte := if v then cbInverse else cbNormal

/-- `H/8 - 1`: the last page of the addressing window (R75). -/
def lastPage (h : Byte) : Byte := BitVec.ofNat 8 (h.toNat / 8 - 1)

/-- `H - 1`: the multiplex operand (R76). -/
def muxOperand (h : Byte) : Byte := BitVec.ofNat 8 (h.toNat - 1)

/-- `WINDOW(H)` (R75). -/
def windowBytes (h : Byte) : List Byte := [cbColAddr, 0x00, 0x7F, cbPageAddr, 0x00, lastPage h]

/-- The 31 command bytes of INIT's steps 1 to 17, in the order of R163 and R164. -/
def initBytes (h : Byte) (com : ComPins) : List Byte :=
  [cbDisplayOff,
   cbClockDiv, Config.pClkdiv,
   cbMux, muxOperand h,
   cbOffset, 0x00,
   cbStartLine0,
   cbChargePump, Config.pChargePump,
   segByte false, comByte false,
   cbComPins, comPinsOperand com,
   cbContrast, Config.pContrastDefault,
   cbPrecharge, Config.pPrecharge,
   cbVcomh, Config.pVcomh,
   cbResumeRam,
   cbNormal,
   cbAddrMode, addrModeHorizontal,
   cbColAddr, 0x00, 0x7F,
   cbPageAddr, 0x00, lastPage h,
   cbDisplayOn]

end Sys2Proof.Machine
end

