-- ==== Sys2Proof/Machine/Operands.lean ====
section
/-! DEFINITION. What the operations compute from their operands: coordinates modulo 256 (R7), the coordinate-to-byte-bit mapper (R41 to R44), lengths (R114), glyph rows and cells (R47, R48). -/

namespace Sys2Proof.Machine

/-- `W` (R5): the width in pixels. -/
def width : Nat := 128

/-- `N = 16 * H` (R5, R24): the framebuffer's size in bytes. -/
def fbSize (h : Byte) : Nat := 16 * h.toNat

/-- `x +8 i` (R7). -/
def plus8 (x : Byte) (i : Nat) : Byte := x + BitVec.ofNat 8 i

/-- `inb(x, y) := x < W and y < H` (R44). -/
def inb (h x y : Byte) : Bool := decide (x.toNat < width) && decide (y.toNat < h.toNat)

/-- `idx(x, y) = x + W * (y div 8)` (R41). -/
def fbIndex (x y : Byte) : Nat := x.toNat + width * (y.toNat / 8)

/-- `bit(y) = y mod 8` (R41). -/
def fbBit (y : Byte) : Nat := y.toNat % 8

/-- `~c` (R7): the other colour. -/
def complement : Colour → Colour
  | .off => .on
  | .on => .off

/-- The byte `b` with the pixel bit `k` set or cleared (R90). -/
def setPixelBit (b : Byte) (k : Nat) : Colour → Byte
  | .on => b ||| ((1 : Byte) <<< k)
  | .off => b &&& ~~~((1 : Byte) <<< k)

/-- The byte of eight pixels of one colour (R91). -/
def fillByte : Colour → Byte
  | .off => 0x00
  | .on => 0xFF

/-- `b -8 a +8 1` (R114): the wrapping length of a rectangle's side. -/
def sideLength (a b : Byte) : Byte := b - a + 1

/-- Glyph column `col` of a row word is set iff `((row << col) & 0x8000) ≠ 0` (R47). -/
def columnSet (row : HalfWord) (col : Nat) : Bool := decide ((row <<< col) &&& 0x8000 ≠ 0)

/-- The colour of a glyph cell (R133, R134): `c` where the font bit is set, `~c` where it is clear. -/
def cellColour (row : HalfWord) (col : Nat) (c : Colour) : Colour :=
  if columnSet row col then c else complement c

/-- The index of a character's glyph row `r` in its font table, `(ch - 32) * gh + r` (R48). -/
def glyphRowIndex (ch gh : Byte) (r : Nat) : Nat := (ch.toNat - 32) * gh.toNat + r

/-- The font encodes a character iff `ch ≥ 32` and `(ch - 32 + 1) * gh ≤ glen`, on naturals (R48). -/
def glyphEncoded (ch gh : Byte) (glen : HalfWord) : Bool :=
  decide (32 ≤ ch.toNat) && decide ((ch.toNat - 32 + 1) * gh.toNat ≤ glen.toNat)

end Sys2Proof.Machine
end

