-- ==== Sys2Proof/Machine/Ops.lean ====
section
/-! DEFINITION. The shared operations every meaning is made of: register updates, PB_SET and PB_FILL (R90, R91), the stream and font ports (R8, R67), EMIT and Record (R160, R161), the update body (R166, R167), the result port, and the configuration-error gate (R250). The block raises no exception (R220), so there is none to take. -/

namespace Sys2Proof.Machine

/-- How an operation ends. -/
abbrev Result := Host.Outcome State Fault Refusal

/-! ## Register updates -/

/-- `FB <- m`. -/
def State.setFb (s : State) (m : Memory) : State := { s with fb := m }
/-- `CX <- x; CY <- y`. -/
def State.setCursor (s : State) (x y : Byte) : State := { s with cx := x, cy := y }
/-- `CX <- x`. -/
def State.setCx (s : State) (x : Byte) : State := { s with cx := x }
/-- `FONT <- f`. -/
def State.setFont (s : State) (f : FontDesc) : State := { s with font := f }
/-- `ERR <- e`. -/
def State.setErr (s : State) (e : Byte) : State := { s with err := e }
/-- `INIT_OK <- b`. -/
def State.setInitOk (s : State) (b : Bool) : State := { s with initOk := b }
/-- What is left of the current operation's stream. -/
def State.setStream (s : State) (bs : List Byte) : State := { s with stream := bs }
/-- The host events still to come. -/
def State.setPort (s : State) (es : List HostEvent) : State := { s with port := es }
/-- The font tables the host has listed. -/
def State.setFontRom (s : State) (ts : List FontTable) : State := { s with fontRom := ts }
/-- The statuses already fixed for the next transactions. -/
def State.setAnswers (s : State) (as : List Byte) : State := { s with answers := as }
/-- The transaction log. -/
def State.setLog (s : State) (ts : List Transaction) : State := { s with log := ts }
/-- The values driven on the result port. -/
def State.setResults (s : State) (rs : List Byte) : State := { s with results := rs }

/-! ## The framebuffer -/

/-- One `PB_SET` call: a coordinate and a colour. -/
structure Pixel where
  x : Byte
  y : Byte
  c : Colour
deriving DecidableEq, Repr

/-- `PB_SET(x, y, c)` (R90): out of bounds a silent clip, else the one bit of the one byte. -/
def pbSet (h : Byte) (m : Memory) (p : Pixel) : Memory :=
  if inb h p.x p.y then
    m.write (fbIndex p.x p.y) (setPixelBit (m.read (fbIndex p.x p.y)) (fbBit p.y) p.c)
  else m

/-- The `PB_SET` calls of one primitive, in order (R110). -/
def plot (h : Byte) (m : Memory) (ps : List Pixel) : Memory := ps.foldl (pbSet h) m

/-- The state with a list of pixels plotted. -/
def State.plot (s : State) (ps : List Pixel) : State := s.setFb (Machine.plot s.cfgH s.fb ps)

/-- `PB_FILL(c)` (R91): every framebuffer byte. -/
def State.pbFill (s : State) (c : Colour) : State :=
  s.setFb (s.fb.load (List.replicate (fbSize s.cfgH) (fillByte c)))

/-- The gate of R250: an operation that reads or writes `FB` is refused while `CFG_H > 64`. -/
def fbGate (s : State) (r : Result) : Result := if 64 < s.cfgH.toNat then .refused .configError else r

/-! ## The stream port -/

/-- A string stream split at its first `0x00` (R51): the characters before it and the bytes after it;
none if no byte is `0x00`. -/
def splitString : List Byte → Option (List Byte × List Byte)
  | [] => none
  | b :: bs =>
    if b = 0x00 then some ([], bs)
    else
      match splitString bs with
      | some (cs, rest) => some (b :: cs, rest)
      | none => none

/-! ## The font port -/

/-- The table the host has listed for a font, the first of that name. -/
def fontTable (fid : Byte) : List FontTable → Option (List HalfWord)
  | [] => none
  | t :: ts => if t.fid = fid then some t.rows else fontTable fid ts

/-- `FontRead(fid, k)` (R8, R67 (2)): the listed word, nothing if the listed table does not reach `k`; a
font that is not listed answers every read with a free word. Log 5. -/
def fontRead (rom : List FontTable) (fid : Byte) (k : Nat) : Option HalfWord :=
  match fontTable fid rom with
  | none => some (Config.fontWord fid k)
  | some rows => rows[k]?

/-- Rendering `ch` needs a row word the store cannot answer (R26, R226 (6)): the font encodes `ch` and
its listed table ends before the character's last row. Log 19. -/
def glyphUnanswered (s : State) (ch : Byte) : Bool :=
  match fontTable s.font.fid s.fontRom with
  | none => false
  | some rows =>
    glyphEncoded ch s.font.gh s.font.glen
      && decide (rows.length < (ch.toNat - 32 + 1) * s.font.gh.toNat)

/-- The row word of a character's glyph row `r`; the default is never met where `glyphUnanswered` is false. -/
def glyphRow (s : State) (ch : Byte) (r : Nat) : HalfWord :=
  (fontRead s.fontRom s.font.fid (glyphRowIndex ch s.font.gh r)).getD 0

/-! ## Transactions -/

/-- The transport's answer to the next transaction (R160): the one already fixed, else a free value.
Log 4. -/
def nextStatus (s : State) : Byte :=
  match s.answers with
  | [] => Config.transportStatus s.log.length
  | a :: _ => a

/-- `EMIT(t)` (R160, R161): hand the transaction over at address `CFG_ADDR`, then `Record` its status. -/
def emit (s : State) (t : Tx) : State :=
  { s with
    answers := s.answers.tail
    log := s.log ++ [{ tx := t, addr := s.cfgAddr, status := nextStatus s }]
    err := recordStatus s.err (nextStatus s) }

/-- Several transactions in order, none stopping the rest (R162). -/
def emitAll (s : State) (ts : List Tx) : State := ts.foldl emit s

/-- `EMIT_WINDOW()` (R166). -/
def emitWindow (s : State) : State := emitAll s ((windowBytes s.cfgH).map .cmd)

/-- `UPDATE_BODY()` (R167): the window, then the whole framebuffer as one block in index order (R45). -/
def updateBody (s : State) : State :=
  emit (emitWindow s) (.data (s.fb.bytes (fbSize s.cfgH)))

/-- `Result(v)` (R8, R67 (3)). -/
def driveResult (s : State) (v : Byte) : State := s.setResults (s.results ++ [v])

end Sys2Proof.Machine
end

