-- ==== Sys2Proof/Machine/Facade.lean ====
section
/-! DEFINITION. The facade's register operations (spec/44_facade.md). -/

namespace Sys2Proof.Machine

/-- IS_INITIALIZED (R200). -/
def execIsInitialized (s : State) : Result := .next (driveResult s (initOkByte s.initOk))

/-- GET_LAST_ERROR (R201): the read does not clear `ERR`. -/
def execGetLastError (s : State) : Result := .next (driveResult s s.err)

/-- CLEAR_ERRORS (R202). -/
def execClearErrors (s : State) : Result := .next (s.setErr 0)

end Sys2Proof.Machine
end

