-- ==== Sys2Proof/Machine/Glyph.lean ====
section
/-! DEFINITION. The glyph renderer (spec/42_glyph.md): cursor, font, characters and strings. -/

namespace Sys2Proof.Machine

/-- SET_CURSOR x, y (R131). -/
def execSetCursor (x y : Byte) (s : State) : Result := .next (s.setCursor x y)

/-- SET_FONT gw, gh, glen, fid (R132); a glyph width above 16 is refused. -/
def execSetFont (gw gh : Byte) (glen : HalfWord) (fid : Byte) (s : State) : Result :=
  if 16 < gw.toNat then .refused .fontTooWide
  else .next (s.setFont { fid := fid, gw := gw, gh := gh, glen := glen })

/-- The cells of one glyph row (R133): columns `0 .. gw-1` left to right. -/
def glyphRowPixels (x y gw : Byte) (row : HalfWord) (c : Colour) : List Pixel :=
  (List.range gw.toNat).map fun col => { x := plus8 x col, y := y, c := cellColour row col c }

/-- The cells of a glyph box (R133): rows top to bottom, each left to right. -/
def glyphPixels (s : State) (ch : Byte) (c : Colour) : List Pixel :=
  (List.range s.font.gh.toNat).flatMap fun r =>
    glyphRowPixels s.cx (plus8 s.cy r) s.font.gw (glyphRow s ch r) c

/-- `RENDER_CHAR(ch, c)` (R133): a character the font does not encode changes nothing (R138); else the
box is painted and `CX` advances by the glyph width. -/
def renderChar (c : Colour) (s : State) (ch : Byte) : State :=
  if glyphEncoded ch s.font.gh s.font.glen then
    (s.plot (glyphPixels s ch c)).setCx (s.cx + s.font.gw)
  else s

/-- WRITE_CHAR ch, c (R135); a font read the store cannot answer is refused (R226 (6)). -/
def execWriteChar (ch : Byte) (c : Colour) (s : State) : Result :=
  fbGate s (if glyphUnanswered s ch then .refused .fontUnanswered else .next (renderChar c s ch))

/-- The loop of WRITE_STRING and WRITE_STRING_INV (R136, R137) in one colour: each character up to the
terminator is rendered, the terminator is read and not rendered (R51). -/
def writeStream (c : Colour) (s : State) : Result :=
  match splitString s.stream with
  | none => .refused .stringUnterminated
  | some (chars, rest) =>
    if chars.any (glyphUnanswered s) then .refused .fontUnanswered
    else .next ((chars.foldl (renderChar c) s).setStream rest)

/-- WRITE_STRING (R136): colour ON. -/
def execWriteString (s : State) : Result := fbGate s (writeStream .on s)

/-- WRITE_STRING_INV (R137): colour OFF. -/
def execWriteStringInv (s : State) : Result := fbGate s (writeStream .off s)

end Sys2Proof.Machine
end

