-- ==== Sys2Proof/Machine/PixelBuffer.lean ====
section
/-! DEFINITION. The PixelBuffer operations CLEAN, FILL and DRAW_IMAGE (spec/40_pixelbuffer.md). -/

namespace Sys2Proof.Machine

/-- CLEAN (R92). -/
def execClean (s : State) : Result := fbGate s (.next (s.pbFill .off))

/-- FILL c (R93). -/
def execFill (c : Colour) (s : State) : Result := fbGate s (.next (s.pbFill c))

/-- The framebuffer taken from the image stream (R94): exactly `N` bytes, verbatim, in order. -/
def State.loadImage (s : State) : State :=
  (s.setFb (s.fb.load (s.stream.take (fbSize s.cfgH)))).setStream (s.stream.drop (fbSize s.cfgH))

/-- DRAW_IMAGE (R94); a stream of fewer than `N` bytes is refused (R49). -/
def execDrawImage (s : State) : Result :=
  fbGate s (if s.stream.length < fbSize s.cfgH then .refused .imageTooShort else .next s.loadImage)

end Sys2Proof.Machine
end

