-- ==== Sys2Proof/Machine/Primitives.lean ====
section
/-! DEFINITION. The raster primitives (spec/41_primitives.md): each plots a list of pixels in the order of its pseudocode. -/

namespace Sys2Proof.Machine

/-- The pixels of LINE_H (R112): `PB_SET(x +8 i, y, c)` for `i` in `0 .. len-1`. -/
def lineHPixels (x y len : Byte) (c : Colour) : List Pixel :=
  (List.range len.toNat).map fun i => { x := plus8 x i, y := y, c := c }

/-- The pixels of LINE_V (R113): `PB_SET(x, y +8 i, c)` for `i` in `0 .. len-1`. -/
def lineVPixels (x y len : Byte) (c : Colour) : List Pixel :=
  (List.range len.toNat).map fun i => { x := x, y := plus8 y i, c := c }

/-- The pixels of RECT (R114): top, bottom, left, right, with wrapping side lengths. -/
def rectPixels (x1 y1 x2 y2 : Byte) (c : Colour) : List Pixel :=
  lineHPixels x1 y1 (sideLength x1 x2) c ++ lineHPixels x1 y2 (sideLength x1 x2) c
    ++ lineVPixels x1 y1 (sideLength y1 y2) c ++ lineVPixels x2 y1 (sideLength y1 y2) c

/-- The pixels of WAVEFORM (R115) for the samples from number `i` on: `PB_SET(x +8 i, y -8 s, c)`. -/
def waveformPixels (x y : Byte) (c : Colour) : Nat → List Byte → List Pixel
  | _, [] => []
  | i, smp :: smps => { x := plus8 x i, y := y - smp, c := c } :: waveformPixels x y c (i + 1) smps

/-- DRAW_PIXEL x, y, c (R111). -/
def execDrawPixel (x y : Byte) (c : Colour) (s : State) : Result :=
  fbGate s (.next (s.plot [{ x := x, y := y, c := c }]))

/-- LINE_H x, y, len, c (R112). -/
def execLineH (x y len : Byte) (c : Colour) (s : State) : Result :=
  fbGate s (.next (s.plot (lineHPixels x y len c)))

/-- LINE_V x, y, len, c (R113). -/
def execLineV (x y len : Byte) (c : Colour) (s : State) : Result :=
  fbGate s (.next (s.plot (lineVPixels x y len c)))

/-- RECT x1, y1, x2, y2, c (R114). -/
def execRect (x1 y1 x2 y2 : Byte) (c : Colour) (s : State) : Result :=
  fbGate s (.next (s.plot (rectPixels x1 y1 x2 y2 c)))

/-- The state after WAVEFORM's `n` samples are read from the stream and plotted (R50, R115). -/
def State.plotSamples (s : State) (x y n : Byte) (c : Colour) : State :=
  (s.plot (waveformPixels x y c 0 (s.stream.take n.toNat))).setStream (s.stream.drop n.toNat)

/-- WAVEFORM x, y, n, c (R115); a stream of fewer than `n` bytes is refused (R50, R255). Log 12. -/
def execWaveform (x y n : Byte) (c : Colour) (s : State) : Result :=
  fbGate s (if s.stream.length < n.toNat then .refused .samplesTooShort else .next (s.plotSamples x y n c))

end Sys2Proof.Machine
end

