-- ==== Sys2Proof/Machine/Protocol.lean ====
section
/-! DEFINITION. The display protocol sequencer (spec/43_protocol.md): every operation is a fixed list of transactions (R162). -/

namespace Sys2Proof.Machine

/-- The body of INIT (R164): steps 1 to 17, the cleared framebuffer, the update, then `INIT_OK`. -/
def initBody (s : State) : State :=
  let s1 := emitAll s ((initBytes s.cfgH s.cfgCom).map .cmd)
  let s2 := updateBody (s1.pbFill .off)
  s2.setInitOk (initOkAfter s2.err)

/-- INIT (R164). -/
def execInit (s : State) : Result := fbGate s (.next (initBody s))

/-- UPDATE (R167). -/
def execUpdate (s : State) : Result := fbGate s (.next (updateBody s))

/-- DISPLAY_OFF (R168). -/
def execDisplayOff (s : State) : Result := .next (emit s (.cmd cbDisplayOff))

/-- DISPLAY_ON (R169). -/
def execDisplayOn (s : State) : Result := .next (emit s (.cmd cbDisplayOn))

/-- SET_BRIGHTNESS value (R170). -/
def execSetBrightness (value : Byte) (s : State) : Result :=
  .next (emitAll s [.cmd cbContrast, .cmd value])

/-- INVERT v (R171). -/
def execInvert (v : Bool) (s : State) : Result := .next (emit s (.cmd (inversionByte v)))

/-- FLIP v (R172). -/
def execFlip (v : Bool) (s : State) : Result := .next (emit s (.cmd (comByte v)))

/-- MIRROR v (R173). -/
def execMirror (v : Bool) (s : State) : Result := .next (emit s (.cmd (segByte v)))

end Sys2Proof.Machine
end

