-- ==== Sys2Proof/Machine/Dispatch.lean ====
section
/-! DEFINITION. One arm per operation of the opcode map (R63). -/

namespace Sys2Proof.Machine

def exec (i : Instr) (s : State) : Host.Outcome State Fault Refusal :=
  match i with
  | .init => Sys2Proof.Machine.execInit s
  | .update => Sys2Proof.Machine.execUpdate s
  | .clean => Sys2Proof.Machine.execClean s
  | .fill c => Sys2Proof.Machine.execFill c s
  | .setCursor x y => Sys2Proof.Machine.execSetCursor x y s
  | .writeString => Sys2Proof.Machine.execWriteString s
  | .writeStringInv => Sys2Proof.Machine.execWriteStringInv s
  | .drawPixel x y c => Sys2Proof.Machine.execDrawPixel x y c s
  | .drawImage => Sys2Proof.Machine.execDrawImage s
  | .lineH x y len c => Sys2Proof.Machine.execLineH x y len c s
  | .lineV x y len c => Sys2Proof.Machine.execLineV x y len c s
  | .rect x1 y1 x2 y2 c => Sys2Proof.Machine.execRect x1 y1 x2 y2 c s
  | .waveform x y n c => Sys2Proof.Machine.execWaveform x y n c s
  | .displayOff => Sys2Proof.Machine.execDisplayOff s
  | .displayOn => Sys2Proof.Machine.execDisplayOn s
  | .setBrightness value => Sys2Proof.Machine.execSetBrightness value s
  | .invert v => Sys2Proof.Machine.execInvert v s
  | .flip v => Sys2Proof.Machine.execFlip v s
  | .mirror v => Sys2Proof.Machine.execMirror v s
  | .setFont gw gh glen fid => Sys2Proof.Machine.execSetFont gw gh glen fid s
  | .isInitialized => Sys2Proof.Machine.execIsInitialized s
  | .getLastError => Sys2Proof.Machine.execGetLastError s
  | .clearErrors => Sys2Proof.Machine.execClearErrors s
  | .writeChar ch c => Sys2Proof.Machine.execWriteChar ch c s

end Sys2Proof.Machine
end

