-- ==== Sys2Proof/Machine/Port.lean ====
section
/-! DEFINITION. The operation port (R9, R67, R255): what accepting a host event does before and after the operation itself. -/

namespace Sys2Proof.Machine

/-- The host issues no word (R254): the block is idle. Log 1. -/
def idle (s : State) : State := s

/-- The host changes a font of the store between operations (R57, R255): the new table is read from
now on. -/
def acceptFont (fid : Byte) (rows : List HalfWord) (rest : List HostEvent) (s : State) : State :=
  (s.setPort rest).setFontRom ({ fid := fid, rows := rows } :: s.fontRom)

/-- An operation word is taken from the port, and its stream stands at the stream port (R67 (1)). -/
def acceptOperation (stream : List Byte) (rest : List HostEvent) (s : State) : State :=
  (s.setPort rest).setStream stream

/-- A word with a reserved opcode is taken from the port and does nothing (R65). Log 10. -/
def acceptReserved (rest : List HostEvent) (s : State) : State := s.setPort rest

/-- The operation has completed: stream bytes it did not read are never read (R49, R67 (1)). Log 11. -/
def endOperation (s : State) : State := s.setStream []

/-- An outcome followed by the end of its operation. -/
def completed : Result → Result
  | .next s => .next (endOperation s)
  | .fault r => .fault r
  | .refused r => .refused r

/-- The stream the host supplies with a word placed by `withFetchWord`: 1024 zero bytes, enough for
every operation's duty of R255 (an image of `N ≤ 1024` bytes, `n ≤ 255` samples, an empty string). Log 16. -/
def placedStream : List Byte := List.replicate 1024 0

/-- The host event that issues the word `w` of `nbits` bits. -/
def placedEvent (nbits w : Nat) : HostEvent := .operation (BitVec.ofNat 48 (w % 2 ^ nbits)) placedStream

end Sys2Proof.Machine
end

