-- ==== Sys2Proof/Machine/Step.lean ====
section
/-! DEFINITION. One step: the block takes the next host event and, for an operation word, executes it in full (R9). -/

namespace Sys2Proof.Machine

/-- One step of the machine: the oldest event at the port, or idle. -/
def step (s : State) : Host.Outcome State Fault Refusal :=
  match s.port with
  | [] => .next (idle s)
  | .installFont fid rows :: rest => .next (acceptFont fid rows rest s)
  | .operation w stream :: rest =>
    match decode w with
    | .error _ => .next (acceptReserved rest s)
    | .ok i => completed (exec i (acceptOperation stream rest s))

/-- The state in which the next step takes the word `w`: the host's next event issues it. Log 1, log 16. -/
def State.withFetchWord (s : State) (nbits w : Nat) : State := s.setPort (placedEvent nbits w :: s.port)

end Sys2Proof.Machine
end

