-- ==== Sys2Proof/Machine/Assembly.lean ====
section
/-! DEFINITION. The assembler of R68 and R69: a line of text to an operation and the stream written after it, and a program to the host events that issue it. Characters are their ASCII codes. -/

namespace Sys2Proof.Machine

/-- What a line is made of (R68). -/
inductive Token where
  /-- A mnemonic, a colour or a boolean, by the codes of its characters. -/
  | name (codes : List Nat)
  /-- A decimal or `0x` number, or the code of a quoted character. -/
  | num (n : Nat)
  | comma
  | openBracket
  | closeBracket
  /-- The sign that introduces a stream, two less-than signs. -/
  | stream
  /-- A quoted text, by the codes of its characters. -/
  | text (codes : List Nat)
deriving DecidableEq, Repr

/-- The codes of a text's characters. -/
def codesOf (s : String) : List Nat := s.toList.map Char.toNat

/-! ## Numbers -/

/-- The value of a digit in a base: `0` to `9`, then `A` to `F` or `a` to `f`. -/
def digitValue (base c : Nat) : Option Nat :=
  if 0x30 ≤ c ∧ c ≤ 0x39 then some (c - 0x30)
  else if base = 16 ∧ 0x41 ≤ c ∧ c ≤ 0x46 then some (c - 0x41 + 10)
  else if base = 16 ∧ 0x61 ≤ c ∧ c ≤ 0x66 then some (c - 0x61 + 10)
  else none

/-- A number's value, its digits most significant first. -/
def digitsValue (base : Nat) : Nat → List Nat → Option Nat
  | acc, [] => some acc
  | acc, c :: cs => (digitValue base c).bind fun d => digitsValue base (base * acc + d) cs

/-- The token of a word of letters, digits and underscores: a number if it begins with a digit. -/
def wordToken (cs : List Nat) : Option Token :=
  match cs with
  | [] => none
  | 0x30 :: 0x78 :: d :: ds => (digitsValue 16 0 (d :: ds)).map .num
  | c :: cs =>
    if 0x30 ≤ c ∧ c ≤ 0x39 then (digitsValue 10 0 (c :: cs)).map .num else some (.name (c :: cs))

/-! ## Characters to tokens -/

/-- Where the reader of characters stands; words and texts are held last character first. -/
inductive LexMode where
  | start
  | word (rev : List Nat)
  | lessThan
  | text (rev : List Nat)
  | quote
  | quoted (code : Nat)
  | comment
deriving DecidableEq, Repr

/-- A letter, a digit or an underscore. -/
def isWordCode (c : Nat) : Bool :=
  decide (0x30 ≤ c ∧ c ≤ 0x39) || decide (0x41 ≤ c ∧ c ≤ 0x5A) || decide (0x61 ≤ c ∧ c ≤ 0x7A) || decide (c = 0x5F)

/-- A character where no token is open: a word character opens a word, `;` starts a comment (R68). -/
def lexBegin (c : Nat) : Option (List Token × LexMode) :=
  if isWordCode c then some ([], .word [c])
  else if c = 0x3B then some ([], .comment)
  else if c = 0x20 ∨ c = 0x09 then some ([], .start)
  else if c = 0x2C then some ([.comma], .start)
  else if c = 0x5B then some ([.openBracket], .start)
  else if c = 0x5D then some ([.closeBracket], .start)
  else if c = 0x3C then some ([], .lessThan)
  else if c = 0x22 then some ([], .text [])
  else if c = 0x27 then some ([], .quote)
  else none

/-- One character: the tokens it completes and where the reader then stands; none if it fits nowhere. -/
def lexStep (m : LexMode) (c : Nat) : Option (List Token × LexMode) :=
  match m with
  | .start => lexBegin c
  | .word rev =>
    if isWordCode c then some ([], .word (c :: rev))
    else (wordToken rev.reverse).bind fun t => (lexBegin c).map fun p => (t :: p.1, p.2)
  | .lessThan => if c = 0x3C then some ([.stream], .start) else none
  | .text rev =>
    if c = 0x22 then some ([.text rev.reverse], .start)
    else if c < 128 then some ([], .text (c :: rev)) else none
  | .quote => if c < 128 then some ([], .quoted c) else none
  | .quoted code => if c = 0x27 then some ([.num code], .start) else none
  | .comment => some ([], .comment)

/-- The end of a line: a word may stand open, a text or a quote may not. -/
def lexEnd (m : LexMode) : Option (List Token) :=
  match m with
  | .start => some []
  | .word rev => (wordToken rev.reverse).map fun t => [t]
  | .lessThan => none
  | .text _ => none
  | .quote => none
  | .quoted _ => none
  | .comment => some []

/-- The tokens of a line's characters. -/
def lexFrom (m : LexMode) : List Nat → Option (List Token)
  | [] => lexEnd m
  | c :: cs => (lexStep m c).bind fun p => (lexFrom p.2 cs).map fun ts => p.1 ++ ts

/-! ## Tokens to an operation -/

/-- A `u8` operand: a number below 256. -/
def byteOperand : Token → Option Byte
  | .num n => if n < 256 then some (BitVec.ofNat 8 n) else none
  | _ => none

/-- A `u16` operand, the `glen` of SET_FONT: a number below 65536. -/
def halfOperand : Token → Option HalfWord
  | .num n => if n < 65536 then some (BitVec.ofNat 16 n) else none
  | _ => none

/-- A colour: `ON`, `OFF`, `WHITE` (= `ON`), `1` or `0` (R68). -/
def colourOperand : Token → Option Colour
  | .num n => if n = 1 then some .on else if n = 0 then some .off else none
  | .name cs =>
    if cs = codesOf "ON" ∨ cs = codesOf "WHITE" then some .on
    else if cs = codesOf "OFF" then some .off else none
  | _ => none

/-- A boolean: `true`, `false`, `1` or `0` (R68). -/
def boolOperand : Token → Option Bool
  | .num n => if n = 1 then some true else if n = 0 then some false else none
  | .name cs => if cs = codesOf "true" then some true else if cs = codesOf "false" then some false else none
  | _ => none

/-- Operands separated by commas (R68), without the commas. -/
def operandList : List Token → Option (List Token)
  | [] => some []
  | [t] => some [t]
  | t :: .comma :: u :: ts => (operandList (u :: ts)).map fun us => t :: us
  | _ => none

/-- Operand forms by their number: x, y. -/
def operandsXY (build : Byte → Byte → Instr) : List Token → Option Instr
  | [a, b] => (byteOperand a).bind fun x => (byteOperand b).map fun y => build x y
  | _ => none

/-- x, y, c. -/
def operandsXYK (build : Byte → Byte → Colour → Instr) : List Token → Option Instr
  | [a, b, k] =>
    (byteOperand a).bind fun x => (byteOperand b).bind fun y => (colourOperand k).map fun c => build x y c
  | _ => none

/-- x, y, len, c. -/
def operandsXYLK (build : Byte → Byte → Byte → Colour → Instr) : List Token → Option Instr
  | [a, b, l, k] =>
    (byteOperand a).bind fun x => (byteOperand b).bind fun y => (byteOperand l).bind fun len =>
      (colourOperand k).map fun c => build x y len c
  | _ => none

/-- x1, y1, x2, y2, c. -/
def operandsRK (build : Byte → Byte → Byte → Byte → Colour → Instr) : List Token → Option Instr
  | [a, b, p, q, k] =>
    (byteOperand a).bind fun x1 => (byteOperand b).bind fun y1 => (byteOperand p).bind fun x2 =>
      (byteOperand q).bind fun y2 => (colourOperand k).map fun c => build x1 y1 x2 y2 c
  | _ => none

/-- ch, c. -/
def operandsCK (build : Byte → Colour → Instr) : List Token → Option Instr
  | [a, k] => (byteOperand a).bind fun ch => (colourOperand k).map fun c => build ch c
  | _ => none

/-- gw, gh, glen, fid. -/
def operandsF (build : Byte → Byte → HalfWord → Byte → Instr) : List Token → Option Instr
  | [a, b, l, f] =>
    (byteOperand a).bind fun gw => (byteOperand b).bind fun gh => (halfOperand l).bind fun glen =>
      (byteOperand f).map fun fid => build gw gh glen fid
  | _ => none

/-- One colour, boolean or byte. -/
def operandsOne {α : Type} (operand : Token → Option α) (build : α → Instr) : List Token → Option Instr
  | [t] => (operand t).map build
  | _ => none

/-- No operand. -/
def operandsN (i : Instr) : List Token → Option Instr
  | [] => some i
  | _ => none

/-- The mnemonics of R63 with their operands in the order of R68, then the pseudo-instructions of R69. -/
def mnemonicTable : List (String × (List Token → Option Instr)) :=
  [("INIT", operandsN .init), ("UPDATE", operandsN .update), ("CLEAN", operandsN .clean),
   ("FILL", operandsOne colourOperand .fill), ("SET_CURSOR", operandsXY .setCursor),
   ("WRITE_STRING", operandsN .writeString), ("WRITE_STRING_INV", operandsN .writeStringInv),
   ("DRAW_PIXEL", operandsXYK .drawPixel), ("DRAW_IMAGE", operandsN .drawImage),
   ("LINE_H", operandsXYLK .lineH), ("LINE_V", operandsXYLK .lineV), ("RECT", operandsRK .rect),
   ("WAVEFORM", operandsXYLK .waveform), ("DISPLAY_OFF", operandsN .displayOff),
   ("DISPLAY_ON", operandsN .displayOn), ("SET_BRIGHTNESS", operandsOne byteOperand .setBrightness)] ++
  [("INVERT", operandsOne boolOperand .invert), ("FLIP", operandsOne boolOperand .flip),
   ("MIRROR", operandsOne boolOperand .mirror), ("SET_FONT", operandsF .setFont),
   ("IS_INITIALIZED", operandsN .isInitialized), ("GET_LAST_ERROR", operandsN .getLastError),
   ("CLEAR_ERRORS", operandsN .clearErrors), ("WRITE_CHAR", operandsCK .writeChar),
   ("DRAW_SQUARE", operandsRK Instr.drawSquare), ("DRAW_WHITE", operandsXY Instr.drawWhite),
   ("DRAW_BLACK", operandsXY Instr.drawBlack)]

/-- The operations that read a byte stream (R49, R50, R51). -/
def readsStream : Instr → Bool
  | .init => false
  | .update => false
  | .clean => false
  | .fill _ => false
  | .setCursor _ _ => false
  | .writeString => true
  | .writeStringInv => true
  | .drawPixel _ _ _ => false
  | .drawImage => true
  | .lineH _ _ _ _ => false
  | .lineV _ _ _ _ => false
  | .rect _ _ _ _ _ => false
  | .waveform _ _ _ _ => true
  | .displayOff => false
  | .displayOn => false
  | .setBrightness _ => false
  | .invert _ => false
  | .flip _ => false
  | .mirror _ => false
  | .setFont _ _ _ _ => false
  | .isInitialized => false
  | .getLastError => false
  | .clearErrors => false
  | .writeChar _ _ => false

/-- The elements of a bracketed list up to its closing bracket, which ends the line. -/
def bracketed : List Token → Option (List Token)
  | [] => none
  | [.closeBracket] => some []
  | t :: ts => (bracketed ts).map fun us => t :: us

/-- The stream after its sign: bytes in brackets, or a text to which the terminating `0x00` is appended (R68). -/
def streamBytes : List Token → Option (List Byte)
  | [.text cs] => some (cs.map (BitVec.ofNat 8) ++ [0x00])
  | .openBracket :: ts => ((bracketed ts).bind operandList).bind fun us => us.mapM byteOperand
  | _ => none

/-- A line's tokens before the stream sign and, if it stands in the line, those after it. -/
def splitAtStream : List Token → List Token × Option (List Token)
  | [] => ([], none)
  | .stream :: ts => ([], some ts)
  | t :: ts => (t :: (splitAtStream ts).1, (splitAtStream ts).2)

/-- The operation of the tokens before the stream sign. -/
def parseOperation : List Token → Option Instr
  | .name cs :: ts =>
    (mnemonicTable.find? fun row => decide (codesOf row.1 = cs)).bind fun row => (operandList ts).bind row.2
  | _ => none

/-- The operation of a line's tokens and its stream: only an operation that reads one may be followed by
one, and with none written the stream is empty. Log 21. -/
def parseTokens (ts : List Token) : Option (Instr × List Byte) :=
  (parseOperation (splitAtStream ts).1).bind fun i =>
    match (splitAtStream ts).2 with
    | none => some (i, [])
    | some us => if readsStream i then (streamBytes us).map fun bs => (i, bs) else none

/-- A line of assembler text (R68): `some none` if it holds no operation, `none` if it is not R68's. -/
def assembleLine (line : String) : Option (Option (Instr × List Byte)) :=
  (lexFrom .start (codesOf line)).bind fun ts =>
    match ts with
    | [] => some none
    | t :: ts => (parseTokens (t :: ts)).map some

/-- A program, one operation per line (R68), as the host events that issue its words in order (R9). -/
def assemble : List String → Option (List HostEvent)
  | [] => some []
  | line :: lines =>
    (assembleLine line).bind fun op => (assemble lines).map fun es =>
      match op with
      | none => es
      | some (i, stream) => .operation (encode i) stream :: es

end Sys2Proof.Machine
end

