-- ==== Sys2Proof/Machine/Construct.lean ====
section
/-! DEFINITION. Construction, the block's one reset (R240, R241). -/

namespace Sys2Proof.Machine

/-- `CONSTRUCT(h, com, addr)` (R241): an omitted orientation is ALT_NOREMAP (R22), an omitted address is
BUS_ADDR_DEFAULT (R23); a height that is 0 or not a multiple of 8 is refused. -/
def construct (h : Byte) (com : Option ComPins) (addr : Option Byte) : Result :=
  if h.toNat = 0 ∨ h.toNat % 8 ≠ 0 then .refused .badHeight
  else .next (State.constructed h (com.getD .altNoremap) (addr.getD Config.busAddrDefault))

end Sys2Proof.Machine
end

