-- ==== Sys2Proof/Safety.lean ====
section
/-! DEFINITION. The terms claims are stated in: a pixel of the framebuffer, the host's contract for an operation, the invariant of every constructed block, the answered transactions of a script, safe runs, and how an assembler line is written. -/

namespace Sys2Proof.Machine

/-! ## The framebuffer, bit by bit -/

/-- Bit `k` of framebuffer byte `a`. -/
def bitAt (m : Memory) (a k : Nat) : Bool := (m.read a).getLsbD k

/-- `pixel(x, y) = FB[x + 128 * (y div 8)][y mod 8]` (R41), 1 being ON. -/
def pixelOn (m : Memory) (x y : Nat) : Bool := bitAt m (x + 128 * (y / 8)) (y % 8)

/-- The bit value of a colour (R10). -/
def isOn : Colour → Bool
  | .off => false
  | .on => true

/-- A `PB_SET` at `(x, y)` on a screen of height `h` stores to bit `k` of byte `a` (R41, R90): a clipped
one stores nowhere. -/
abbrev PlotsTo (h x y : Byte) (a k : Nat) : Prop := inb h x y = true ∧ fbIndex x y = a ∧ fbBit y = k

/-- `m'` is `m` with exactly the bits in `hit` drawn in colour `c` (R117). -/
def DrawnExactly (c : Colour) (hit : Nat → Nat → Prop) (m m' : Memory) : Prop :=
  ∀ a k, k < 8 →
    (hit a k → bitAt m' a k = isOn c) ∧ (¬ hit a k → bitAt m' a k = bitAt m a k)

/-! ## The host's contract -/

/-- The operations that read or write `FB`, the list of R250. -/
def touchesFb : Instr → Bool
  | .init => true
  | .update => true
  | .clean => true
  | .fill _ => true
  | .setCursor _ _ => false
  | .writeString => true
  | .writeStringInv => true
  | .drawPixel _ _ _ => true
  | .drawImage => true
  | .lineH _ _ _ _ => true
  | .lineV _ _ _ _ => true
  | .rect _ _ _ _ _ => true
  | .waveform _ _ _ _ => true
  | .displayOff => false
  | .displayOn => false
  | .setBrightness _ => false
  | .invert _ => false
  | .flip _ => false
  | .mirror _ => false
  | .setFont _ _ _ _ => false
  | .isInitialized => false
  | .getLastError => false
  | .clearErrors => false
  | .writeChar _ _ => true

/-- The store answers every row word that rendering `ch` reads (R26, R133): none if the font does not
encode `ch`. -/
def GlyphAnswered (s : State) (ch : Byte) : Prop :=
  glyphEncoded ch s.font.gh s.font.glen = true →
    ∀ r, r < s.font.gh.toNat → fontRead s.fontRom s.font.fid (glyphRowIndex ch s.font.gh r) ≠ none

/-- The stream holds a `0x00`, and the store answers the glyphs of the characters before it (R51, R226). -/
def StringSupplied (s : State) : Prop :=
  ∃ chars rest, (0x00 : Byte) ∉ chars ∧ s.stream = chars ++ 0x00 :: rest ∧ ∀ ch ∈ chars, GlyphAnswered s ch

/-- What the operation asks of the streams, the font store and its own operands (R226 (2) to (6), R255). -/
def Supplied : Instr → State → Prop
  | .init, _ => True
  | .update, _ => True
  | .clean, _ => True
  | .fill _, _ => True
  | .setCursor _ _, _ => True
  | .writeString, s => StringSupplied s
  | .writeStringInv, s => StringSupplied s
  | .drawPixel _ _ _, _ => True
  | .drawImage, s => 16 * s.cfgH.toNat ≤ s.stream.length
  | .lineH _ _ _ _, _ => True
  | .lineV _ _ _ _, _ => True
  | .rect _ _ _ _ _, _ => True
  | .waveform _ _ n _, s => n.toNat ≤ s.stream.length
  | .displayOff, _ => True
  | .displayOn, _ => True
  | .setBrightness _, _ => True
  | .invert _, _ => True
  | .flip _, _ => True
  | .mirror _, _ => True
  | .setFont gw _ _ _, _ => gw.toNat ≤ 16
  | .isInitialized, _ => True
  | .getLastError, _ => True
  | .clearErrors, _ => True
  | .writeChar ch _, s => GlyphAnswered s ch

/-- An operation within the block's contract (R226, R250, R255). -/
def Admissible (i : Instr) (s : State) : Prop :=
  (touchesFb i = true → s.cfgH.toNat ≤ 64) ∧ Supplied i s

/-! ## Transactions and errors -/

/-- The status the transport answers to the `j`-th next transaction (R160): the one already fixed in
`answers`, else the free value of that transaction's number. -/
def statusAt (s : State) (j : Nat) : Byte :=
  match s.answers[j]? with
  | some a => a
  | none => Config.transportStatus (s.log.length + j)

/-- The log entries of a script emitted from state `s`: each with `CFG_ADDR` (R71) and its status. -/
def answered (s : State) (ts : List Tx) : List Transaction :=
  ts.mapIdx fun j t => { tx := t, addr := s.cfgAddr, status := statusAt s j }

/-- `ERR` after transactions answered with these statuses (R161, R227): the last nonzero one, else the
value before. -/
def lastFailure (err : Byte) (statuses : List Byte) : Byte :=
  (statuses.reverse.find? fun st => st != 0).getD err

/-- A transaction is a command byte. -/
def isCmd : Tx → Bool
  | .cmd _ => true
  | .data _ => false

/-- Every data block of the log stands right after the six bytes of `WINDOW(H)` (R166, R246). -/
def WindowsPrecedeData (s : State) : Prop :=
  ∀ before bs after, s.log.map Transaction.tx = before ++ .data bs :: after →
    ∃ earlier, before = earlier ++
      ([0x21, 0x00, 0x7F, 0x22, 0x00, BitVec.ofNat 8 (s.cfgH.toNat / 8 - 1)] : List Byte).map .cmd

/-! ## The invariant and safe runs -/

/-- What holds of every constructed block and is kept by every step. -/
structure Inv (s : State) : Prop where
  /-- The height is a positive multiple of 8 (R21, R241). -/
  height_pos : 0 < s.cfgH.toNat
  height_mul : s.cfgH.toNat % 8 = 0
  /-- The framebuffer is in canonical form and has no byte at `N` or above (R54). -/
  fb_wf : s.fb.wf = true
  fb_below : s.fb.below (16 * s.cfgH.toNat) = true
  /-- The selected font's width is legal (R26). -/
  font_width : s.font.gw.toNat ≤ 16
  /-- Under a configuration error the block is never initialized (R222, C6). -/
  config_error : 64 < s.cfgH.toNat → s.initOk = false
  /-- Every transaction carried `CFG_ADDR`, and every data block was `N` bytes (R71). -/
  log_addr : ∀ e ∈ s.log, e.addr = s.cfgAddr
  log_data : ∀ e ∈ s.log, ∀ bs, e.tx = .data bs → bs.length = 16 * s.cfgH.toNat

/-- Operations executed one after the other (R9), stopping at the first that does not complete. -/
def execAll : List Instr → State → Result
  | [], s => .next s
  | i :: is, s =>
    match exec i s with
    | .next t => execAll is t
    | .fault r => .fault r
    | .refused r => .refused r

/-- A safe run: no number of steps from `s` leaves the contract. -/
def SafeRun (s : State) : Prop := ∀ n, ∃ t, Sys2Proof.core.run n s = .next t

/-- Every word at the port is reserved, or decodes to an operation with a legal operand that reads no stream
and no font (R65, R226). -/
def StreamlessPort (s : State) : Prop :=
  ∀ e ∈ s.port, ∀ w stream, e = .operation w stream → ∀ i, decode w = .ok i →
    i.wellFormed = true ∧ readsStream i = false ∧ ∀ ch c, i ≠ .writeChar ch c

/-! ## How an assembler line is written (R68) -/

/-- The number whose digits in a base are `ds`, most significant first. -/
def numberOf (base : Nat) (ds : List Nat) : Nat := ds.foldl (fun n d => base * n + d) 0

/-- `c` is the code of the hexadecimal digit `d`, in either letter case. -/
def HexDigit (d c : Nat) : Prop :=
  (d < 10 ∧ c = 0x30 + d) ∨ (10 ≤ d ∧ d < 16 ∧ (c = 0x41 + (d - 10) ∨ c = 0x61 + (d - 10)))

/-- The characters `cs` are one way to write the word `t`: a name, a decimal number, or a `0x` number. -/
inductive WordSpelling : Token → List Nat → Prop where
  | name {c : Nat} {cs : List Nat} : isWordCode c = true → ¬ (0x30 ≤ c ∧ c ≤ 0x39) →
      (∀ x ∈ cs, isWordCode x = true) → WordSpelling (.name (c :: cs)) (c :: cs)
  | decimal {d : Nat} {ds : List Nat} : (∀ x ∈ d :: ds, x < 10) →
      WordSpelling (.num (numberOf 10 (d :: ds))) ((d :: ds).map (0x30 + ·))
  | hex {d c : Nat} {ds cs : List Nat} : List.Forall₂ HexDigit (d :: ds) (c :: cs) →
      WordSpelling (.num (numberOf 16 (d :: ds))) (0x30 :: 0x78 :: c :: cs)

/-- The characters are one way to write the tokens as a line (R68): spaces and tabs anywhere between tokens,
a number in decimal, in `0x` hex or as a quoted character, and after the last token a comment or nothing. -/
inductive LineSpelling : List Token → List Nat → Prop where
  | done : LineSpelling [] []
  | comment (cs : List Nat) : LineSpelling [] (0x3B :: cs)
  | blank {c : Nat} {ts : List Token} {cs : List Nat} : c = 0x20 ∨ c = 0x09 → LineSpelling ts cs →
      LineSpelling ts (c :: cs)
  | comma {ts : List Token} {cs : List Nat} : LineSpelling ts cs → LineSpelling (.comma :: ts) (0x2C :: cs)
  | openBracket {ts : List Token} {cs : List Nat} : LineSpelling ts cs →
      LineSpelling (.openBracket :: ts) (0x5B :: cs)
  | closeBracket {ts : List Token} {cs : List Nat} : LineSpelling ts cs →
      LineSpelling (.closeBracket :: ts) (0x5D :: cs)
  | stream {ts : List Token} {cs : List Nat} : LineSpelling ts cs →
      LineSpelling (.stream :: ts) (0x3C :: 0x3C :: cs)
  | text {w : List Nat} {ts : List Token} {cs : List Nat} : (∀ x ∈ w, x < 128 ∧ x ≠ 0x22) → LineSpelling ts cs →
      LineSpelling (.text w :: ts) (0x22 :: (w ++ 0x22 :: cs))
  | quoted {c : Nat} {ts : List Token} {cs : List Nat} : c < 128 → LineSpelling ts cs →
      LineSpelling (.num c :: ts) (0x27 :: c :: 0x27 :: cs)
  | word {t : Token} {w : List Nat} {ts : List Token} {cs : List Nat} : WordSpelling t w →
      (∀ c ∈ cs.head?, isWordCode c = false) → LineSpelling ts cs → LineSpelling (t :: ts) (w ++ cs)

/-- The tokens that name a colour: `ON`, `WHITE` and `1`, or `OFF` and `0` (R68). -/
def colourTokens : Colour → List Token
  | .on => [.name (codesOf "ON"), .name (codesOf "WHITE"), .num 1]
  | .off => [.name (codesOf "OFF"), .num 0]

/-- The tokens that name a boolean: `true` and `1`, or `false` and `0` (R68). -/
def boolTokens : Bool → List Token
  | true => [.name (codesOf "true"), .num 1]
  | false => [.name (codesOf "false"), .num 0]

/-- The tokens after an operation that give it a stream (R68): bytes in brackets, a text with its
terminating `0x00`, or none at all for the empty stream (log 21). -/
inductive StreamTokens : List Byte → List Token → Prop where
  | none : StreamTokens [] []
  | bytes (bs : List Byte) : StreamTokens bs
      (.stream :: .openBracket :: ((bs.map fun b => Token.num b.toNat).intersperse .comma ++ [.closeBracket]))
  | text (w : List Nat) : StreamTokens (w.map (BitVec.ofNat 8) ++ [0x00]) [.stream, .text w]

end Sys2Proof.Machine
end

