-- ==== Sys2Proof/Certificates/Slice0/Obligations.lean ====
section
/-! DEFINITION. The statements for the provers, from the numbered rules of spec/. -/

open Sys2Proof Sys2Proof.Machine

/-! ## Construction and reset -/

/-- R241: construction validates the height, and otherwise always succeeds and sets every register; the
framebuffer bytes are draws, so the clause on them holds for every value of the draw. -/
def Obligations.ConstructionSetsEveryRegister : Prop :=
  Config.cfgErr ≠ 0 ∧
  ∀ (h : Byte) (com : Option ComPins) (addr : Option Byte),
    (h.toNat = 0 ∨ h.toNat % 8 ≠ 0 → construct h com addr = .refused .badHeight) ∧
    (h.toNat ≠ 0 → h.toNat % 8 = 0 →
      ∃ t, construct h com addr = .next t ∧
        t.cfgH = h ∧ t.cfgCom = com.getD .altNoremap ∧ t.cfgAddr = addr.getD Config.busAddrDefault ∧
        (64 < h.toNat → t.err = Config.cfgErr) ∧ (h.toNat ≤ 64 → t.err = 0) ∧
        t.initOk = false ∧ t.cx = 0 ∧ t.cy = 0 ∧ t.font = defaultFont ∧
        (∀ i, i < 16 * h.toNat → t.fb.read i = Config.fbDraw i) ∧
        t.log = [] ∧ t.results = [])

/-- The model's own choice (log 2): `State.reset` is the construction with height 64, orientation and
address omitted; with it the spec's reset values of R34 for such a block. -/
def Obligations.ResetIsConstructionAtHeight64 : Prop :=
  construct 64 none none = .next State.reset ∧
  State.reset.cfgH = 64 ∧ State.reset.cfgCom = .altNoremap ∧ State.reset.cfgAddr = Config.busAddrDefault ∧
  State.reset.cx = 0 ∧ State.reset.cy = 0 ∧ State.reset.font = defaultFont ∧
  State.reset.err = 0 ∧ State.reset.initOk = false ∧
  State.reset.log = [] ∧ State.reset.results = []

/-- Every constructed block, `State.reset` among them, meets the invariant. -/
def Obligations.ConstructionEstablishesInvariant : Prop :=
  Inv State.reset ∧
  ∀ (h : Byte) (com : Option ComPins) (addr : Option Byte) (t : State), construct h com addr = .next t → Inv t

/-! ## Encoding -/

/-- Words of `spec/30_encoding.md` and `spec/95_test_vectors.md` V-E1, V-E2, V-E3 and V-E4. -/
def Obligations.SampleWordsDecode : Prop :=
  decode 0x010000000000 = .ok .init ∧
  decode 0x02FFFFFFFFFF = .ok .update ∧
  decode 0x04AABBCCDDFE = .ok (.fill .off) ∧
  decode 0x087F3F000001 = .ok (.drawPixel 127 63 .on) ∧
  decode 0x0801031234FF = .ok (.drawPixel 1 3 .on) ∧
  decode 0x0A0002040001 = .ok (.lineH 0 2 4 .on) ∧
  decode 0x0C0101040501 = .ok (.rect 1 1 4 5 .on) ∧
  decode 0x0D0107050001 = .ok (.waveform 1 7 5 .on) ∧
  decode 0x107F00000000 = .ok (.setBrightness 0x7F) ∧
  decode 0x120000000001 = .ok (.flip true) ∧
  decode 0x140810010008 = .ok (.setFont 8 16 0x0100 8) ∧
  decode 0x14070A00FA00 = .ok (.setFont 7 10 250 0) ∧
  decode 0x183800000001 = .ok (.writeChar 0x38 .on) ∧
  decode 0x160000000000 = .ok .getLastError ∧
  decode 0x000000000000 = .error (.reservedOpcode 0x00) ∧
  decode 0x190000000001 = .error (.reservedOpcode 0x19)

/-- R60, R61, R62, R63: every row of the opcode map, with every value of every field. -/
def Obligations.OpcodeMapDecodesEveryRow : Prop :=
  ∀ (a b c d e : Byte),
    let col : Colour := if e.getLsbD 0 then .on else .off
    let v : Bool := e.getLsbD 0
    let word : Byte → OpWord := fun opc =>
      BitVec.ofNat 48 (opc.toNat * 2 ^ 40 + a.toNat * 2 ^ 32 + b.toNat * 2 ^ 24 + c.toNat * 2 ^ 16
        + d.toNat * 2 ^ 8 + e.toNat)
    decode (word 0x01) = .ok .init ∧
    decode (word 0x02) = .ok .update ∧
    decode (word 0x03) = .ok .clean ∧
    decode (word 0x04) = .ok (.fill col) ∧
    decode (word 0x05) = .ok (.setCursor a b) ∧
    decode (word 0x06) = .ok .writeString ∧
    decode (word 0x07) = .ok .writeStringInv ∧
    decode (word 0x08) = .ok (.drawPixel a b col) ∧
    decode (word 0x09) = .ok .drawImage ∧
    decode (word 0x0A) = .ok (.lineH a b c col) ∧
    decode (word 0x0B) = .ok (.lineV a b c col) ∧
    decode (word 0x0C) = .ok (.rect a b c d col) ∧
    decode (word 0x0D) = .ok (.waveform a b c col) ∧
    decode (word 0x0E) = .ok .displayOff ∧
    decode (word 0x0F) = .ok .displayOn ∧
    decode (word 0x10) = .ok (.setBrightness a) ∧
    decode (word 0x11) = .ok (.invert v) ∧
    decode (word 0x12) = .ok (.flip v) ∧
    decode (word 0x13) = .ok (.mirror v) ∧
    decode (word 0x14) = .ok (.setFont a b (BitVec.ofNat 16 (c.toNat * 256 + d.toNat)) e) ∧
    decode (word 0x15) = .ok .isInitialized ∧
    decode (word 0x16) = .ok .getLastError ∧
    decode (word 0x17) = .ok .clearErrors ∧
    decode (word 0x18) = .ok (.writeChar a col)

/-- R66: decoding is total, and the reserved opcodes are exactly 0x00 and 0x19 to 0xFF. -/
def Obligations.ReservedOpcodesAreExactlyTheRest : Prop :=
  ∀ w : OpWord,
    (1 ≤ w.toNat / 2 ^ 40 ∧ w.toNat / 2 ^ 40 ≤ 0x18 → ∃ i, decode w = .ok i) ∧
    (w.toNat / 2 ^ 40 = 0 ∨ 0x19 ≤ w.toNat / 2 ^ 40 →
      decode w = .error (.reservedOpcode (BitVec.ofNat 8 (w.toNat / 2 ^ 40))))

/-- R64: words that differ only in bits the operation's format ignores are the same operation. -/
def Obligations.IgnoredBitsDoNotDecode : Prop :=
  ∀ (w w' : OpWord) (i : Instr), decode w = .ok i →
    w &&& formatMask (formatOf i) = w' &&& formatMask (formatOf i) → decode w' = .ok i

/-- Decode after encode: no bit of an operand is dropped, for every operation and operand. -/
def Obligations.DecodeOfEncode : Prop := ∀ i : Instr, decode (encode i) = .ok i

/-- Encode after decode: the word's used bits, every ignored bit zero. -/
def Obligations.EncodeOfDecode : Prop :=
  ∀ (w : OpWord) (i : Instr), decode w = .ok i → encode i = w &&& formatMask (formatOf i)

/-- R68, R69: every line of assembler text is its operation with its stream. A line is any way to write the
mnemonic, its operands in the order of R68 with commas between them, and the stream: numbers in decimal, in
`0x` hex or as a quoted character, colours `ON`, `OFF`, `WHITE`, `1` and `0`, booleans `true`, `false`, `1` and
`0`, either form of stream after each of the four operations that read one, blanks between tokens, a comment
at the end. DRAW_SQUARE, DRAW_WHITE and DRAW_BLACK are the operations R69 names; a line of blanks or a comment
holds no operation; a program's lines issue their words in order. What R68 leaves open of the text (blanks,
letter case, digits, no stream written) is the model's choice, log 21. -/
def Obligations.AssembledLinesAreTheirOperations : Prop :=
  (∀ (a b c d : Byte) (glen : HalfWord) (col : Colour) (v : Bool) (stream : List Byte)
    (k t : Token) (tail : List Token),
    k ∈ colourTokens col → t ∈ boolTokens v → StreamTokens stream tail →
    let n : Byte → Token := fun x => .num x.toNat
    let line : String → List Token → List Token := fun name ops => .name (codesOf name) :: ops.intersperse .comma
    let reads : List Token → Instr → List Byte → Prop := fun ts i bs =>
      ∀ text, LineSpelling ts (codesOf text) → assembleLine text = some (some (i, bs))
    reads (line "INIT" []) .init [] ∧
    reads (line "UPDATE" []) .update [] ∧
    reads (line "CLEAN" []) .clean [] ∧
    reads (line "FILL" [k]) (.fill col) [] ∧
    reads (line "SET_CURSOR" [n a, n b]) (.setCursor a b) [] ∧
    reads (line "WRITE_STRING" [] ++ tail) .writeString stream ∧
    reads (line "WRITE_STRING_INV" [] ++ tail) .writeStringInv stream ∧
    reads (line "DRAW_PIXEL" [n a, n b, k]) (.drawPixel a b col) [] ∧
    reads (line "DRAW_IMAGE" [] ++ tail) .drawImage stream ∧
    reads (line "LINE_H" [n a, n b, n c, k]) (.lineH a b c col) [] ∧
    reads (line "LINE_V" [n a, n b, n c, k]) (.lineV a b c col) [] ∧
    reads (line "RECT" [n a, n b, n c, n d, k]) (.rect a b c d col) [] ∧
    reads (line "WAVEFORM" [n a, n b, n c, k] ++ tail) (.waveform a b c col) stream ∧
    reads (line "DISPLAY_OFF" []) .displayOff [] ∧
    reads (line "DISPLAY_ON" []) .displayOn [] ∧
    reads (line "SET_BRIGHTNESS" [n a]) (.setBrightness a) [] ∧
    reads (line "INVERT" [t]) (.invert v) [] ∧
    reads (line "FLIP" [t]) (.flip v) [] ∧
    reads (line "MIRROR" [t]) (.mirror v) [] ∧
    reads (line "SET_FONT" [n a, n b, .num glen.toNat, n c]) (.setFont a b glen c) [] ∧
    reads (line "IS_INITIALIZED" []) .isInitialized [] ∧
    reads (line "GET_LAST_ERROR" []) .getLastError [] ∧
    reads (line "CLEAR_ERRORS" []) .clearErrors [] ∧
    reads (line "WRITE_CHAR" [n a, k]) (.writeChar a col) [] ∧
    reads (line "DRAW_SQUARE" [n a, n b, n c, n d, k]) (.rect a b c d col) [] ∧
    reads (line "DRAW_WHITE" [n a, n b]) (.drawPixel a b .on) [] ∧
    reads (line "DRAW_BLACK" [n a, n b]) (.drawPixel a b .off) []) ∧
  (∀ text, LineSpelling [] (codesOf text) → assembleLine text = some none) ∧
  assemble [] = some [] ∧
  (∀ (text : String) (lines : List String) (events : List HostEvent), assemble lines = some events →
    (assembleLine text = some none → assemble (text :: lines) = some events) ∧
    (∀ i bs, assembleLine text = some (some (i, bs)) →
      assemble (text :: lines) = some (.operation (encode i) bs :: events)))

/-! ## Steps -/

/-- R9, R67: a step executes the operation the host issued, with its stream, and a refused operation refuses
the step. That the pending words are a list whose oldest event the step takes (log 1), and that the step drops
what the operation left of its stream (log 11), are the model's own choice. -/
def Obligations.StepRunsTheIssuedOperation : Prop :=
  ∀ (s : State) (w : OpWord) (stream : List Byte) (rest : List HostEvent) (i : Instr),
    s.port = .operation w stream :: rest → decode w = .ok i →
    (∀ t, exec i { s with port := rest, stream := stream } = .next t → step s = .next { t with stream := [] }) ∧
    (∀ r, exec i { s with port := rest, stream := stream } = .refused r → step s = .refused r)

/-- R65: a word with a reserved opcode changes no state, emits nothing and drives no result. That the word is
taken from the port and the run goes on, where a model may also refuse the word, is DEDUCED (log 10), on the
port list that is the model's own choice (log 1). -/
def Obligations.ReservedWordDoesNothing : Prop :=
  ∀ (s : State) (w : OpWord) (stream : List Byte) (rest : List HostEvent),
    s.port = .operation w stream :: rest → w.toNat / 2 ^ 40 = 0 ∨ 0x19 ≤ w.toNat / 2 ^ 40 →
    step s = .next { s with port := rest }

/-- The model's own choice (log 1): with no host event the block is idle; a font change between
operations (R57) writes the font store alone, and later font reads see it. -/
def Obligations.StepWithoutOperation : Prop :=
  (∀ s : State, s.port = [] → step s = .next s) ∧
  (∀ (s : State) (fid : Byte) (rows : List HalfWord) (rest : List HostEvent),
    s.port = .installFont fid rows :: rest →
    ∃ t, step s = .next t ∧ t = { s with port := rest, fontRom := t.fontRom } ∧
      (∀ k, fontRead t.fontRom fid k = rows[k]?) ∧
      (∀ fid' k, fid' ≠ fid → fontRead t.fontRom fid' k = fontRead s.fontRom fid' k))

/-! ## Framebuffer addressing -/

/-- R44: an in-bounds coordinate addresses an existing byte, distinct coordinates address distinct
(byte, bit) pairs, and every (byte, bit) pair is addressed. -/
def Obligations.PixelAddressingIsABijection : Prop :=
  ∀ h : Byte, h.toNat % 8 = 0 →
    (∀ x y, inb h x y = true → fbIndex x y < 16 * h.toNat ∧ fbBit y < 8) ∧
    (∀ x y x' y', inb h x y = true → inb h x' y' = true →
      fbIndex x y = fbIndex x' y' → fbBit y = fbBit y' → x = x' ∧ y = y') ∧
    (∀ a k, a < 16 * h.toNat → k < 8 →
      ∃ x y, inb h x y = true ∧ fbIndex x y = a ∧ fbBit y = k ∧
        x.toNat = a % 128 ∧ y.toNat = 8 * (a / 128) + k)

/-- R110: the calls of a primitive all have one colour, so their order does not change its result. -/
def Obligations.PlotOrderDoesNotMatter : Prop :=
  ∀ (h : Byte) (m : Memory) (ps qs : List Pixel) (c : Colour), m.wf = true →
    (∀ p ∈ ps, p.c = c) → ps.Perm qs → plot h m ps = plot h m qs

/-! ## PixelBuffer operations -/

/-- R91, R92, R93: FILL writes every byte of the buffer, CLEAN equals FILL OFF; nothing else changes. -/
def Obligations.FillAndCleanWriteEveryByte : Prop :=
  ∀ s : State, s.cfgH.toNat ≤ 64 → s.fb.wf = true →
    exec .clean s = exec (.fill .off) s ∧
    ∀ c : Colour, ∃ t, exec (.fill c) s = .next t ∧ t = { s with fb := t.fb } ∧
      (∀ a, a < 16 * s.cfgH.toNat → t.fb.read a = match c with | .on => 0xFF | .off => 0x00) ∧
      (∀ a, 16 * s.cfgH.toNat ≤ a → t.fb.read a = s.fb.read a)

/-- R91: the fill equals a `PB_SET` of the colour at every in-bounds coordinate. -/
def Obligations.FillEqualsSettingEveryPixel : Prop :=
  ∀ (s t : State) (c : Colour) (ps : List Pixel), Inv s → exec (.fill c) s = .next t →
    (∀ p ∈ ps, p.c = c) → (∀ x y, inb s.cfgH x y = true → ∃ p ∈ ps, p.x = x ∧ p.y = y) →
    plot s.cfgH s.fb ps = t.fb

/-- R94: DRAW_IMAGE copies exactly `N` stream bytes verbatim and reads no more; a shorter stream is refused. -/
def Obligations.DrawImageCopiesTheStream : Prop :=
  ∀ s : State, s.cfgH.toNat ≤ 64 → s.fb.wf = true →
    (16 * s.cfgH.toNat ≤ s.stream.length →
      ∃ t, exec .drawImage s = .next t ∧
        t = { s with fb := t.fb, stream := s.stream.drop (16 * s.cfgH.toNat) } ∧
        (∀ i, i < 16 * s.cfgH.toNat → s.stream[i]? = some (t.fb.read i)) ∧
        (∀ a, 16 * s.cfgH.toNat ≤ a → t.fb.read a = s.fb.read a)) ∧
    (s.stream.length < 16 * s.cfgH.toNat → exec .drawImage s = .refused .imageTooShort)

/-! ## Raster primitives -/

/-- R90, R111: DRAW_PIXEL writes the one bit of the one byte, and nothing if the coordinate is out of
bounds; nothing else changes. -/
def Obligations.DrawPixelWritesOneBit : Prop :=
  ∀ (s : State) (x y : Byte) (c : Colour), s.cfgH.toNat ≤ 64 → s.fb.wf = true →
    ∃ t, exec (.drawPixel x y c) s = .next t ∧ t = { s with fb := t.fb } ∧
      DrawnExactly c (fun a k => PlotsTo s.cfgH x y a k) s.fb t.fb

/-- R96, R223: a coordinate outside the screen leaves the whole state unmodified, `ERR` included. -/
def Obligations.ClippedPixelChangesNothing : Prop :=
  ∀ (s : State) (x y : Byte) (c : Colour), s.cfgH.toNat ≤ 64 →
    (128 ≤ x.toNat ∨ s.cfgH.toNat ≤ y.toNat) → exec (.drawPixel x y c) s = .next s

/-- R95: ON and then OFF at one in-bounds coordinate leaves the bit 0 and every other bit as it was, so it
restores the original exactly when that bit was 0. -/
def Obligations.SetThenClearLeavesTheBitClear : Prop :=
  ∀ (s : State) (x y : Byte), s.cfgH.toNat ≤ 64 → s.fb.wf = true → inb s.cfgH x y = true →
    ∃ t, execAll [.drawPixel x y .on, .drawPixel x y .off] s = .next t ∧
      pixelOn t.fb x.toNat y.toNat = false ∧
      (∀ a k, k < 8 → ¬ PlotsTo s.cfgH x y a k → bitAt t.fb a k = bitAt s.fb a k) ∧
      (t = s ↔ pixelOn s.fb x.toNat y.toNat = false)

/-- R112: LINE_H draws the pixels `(x +8 i, y)` for `i < len`, and nothing else changes. -/
def Obligations.LineHDrawsItsRow : Prop :=
  ∀ (s : State) (x y len : Byte) (c : Colour), s.cfgH.toNat ≤ 64 → s.fb.wf = true →
    ∃ t, exec (.lineH x y len c) s = .next t ∧ t = { s with fb := t.fb } ∧
      DrawnExactly c (fun a k => ∃ i, i < len.toNat ∧ PlotsTo s.cfgH (x + BitVec.ofNat 8 i) y a k) s.fb t.fb

/-- R113: LINE_V draws the pixels `(x, y +8 i)` for `i < len`, and nothing else changes. -/
def Obligations.LineVDrawsItsColumn : Prop :=
  ∀ (s : State) (x y len : Byte) (c : Colour), s.cfgH.toNat ≤ 64 → s.fb.wf = true →
    ∃ t, exec (.lineV x y len c) s = .next t ∧ t = { s with fb := t.fb } ∧
      DrawnExactly c (fun a k => ∃ i, i < len.toNat ∧ PlotsTo s.cfgH x (y + BitVec.ofNat 8 i) a k) s.fb t.fb

/-- R114: RECT draws its four sides with the wrapping 8-bit lengths, for every order of its corners: a
column lies on a horizontal side iff its wrapping distance from `x1` is below `x2 -8 x1 +8 1`. -/
def Obligations.RectDrawsItsFourSides : Prop :=
  ∀ (s : State) (x1 y1 x2 y2 : Byte) (c : Colour), s.cfgH.toNat ≤ 64 → s.fb.wf = true →
    ∃ t, exec (.rect x1 y1 x2 y2 c) s = .next t ∧ t = { s with fb := t.fb } ∧
      DrawnExactly c (fun a k => ∃ x y : Byte, PlotsTo s.cfgH x y a k ∧
        (((y = y1 ∨ y = y2) ∧ (x - x1).toNat < (x2 - x1 + 1).toNat) ∨
         ((x = x1 ∨ x = x2) ∧ (y - y1).toNat < (y2 - y1 + 1).toNat))) s.fb t.fb

/-- With ordered corners whose sides do not wrap, RECT draws exactly the border of the box, every visible
pixel of the interior and of the outside keeping its colour. -/
def Obligations.OrderedRectIsTheBorder : Prop :=
  ∀ (s t : State) (x1 y1 x2 y2 : Byte) (c : Colour), s.fb.wf = true →
    x1.toNat ≤ x2.toNat → y1.toNat ≤ y2.toNat → x2.toNat < x1.toNat + 255 → y2.toNat < y1.toNat + 255 →
    exec (.rect x1 y1 x2 y2 c) s = .next t →
    ∀ x y, x < 128 → y < s.cfgH.toNat →
      ((x1.toNat ≤ x ∧ x ≤ x2.toNat ∧ y1.toNat ≤ y ∧ y ≤ y2.toNat ∧
          (x = x1.toNat ∨ x = x2.toNat ∨ y = y1.toNat ∨ y = y2.toNat)) → pixelOn t.fb x y = isOn c) ∧
      (¬ (x1.toNat ≤ x ∧ x ≤ x2.toNat ∧ y1.toNat ≤ y ∧ y ≤ y2.toNat ∧
          (x = x1.toNat ∨ x = x2.toNat ∨ y = y1.toNat ∨ y = y2.toNat)) → pixelOn t.fb x y = pixelOn s.fb x y)

/-- R50, R115: WAVEFORM reads exactly `n` samples and draws one pixel `(x +8 i, y -8 s_i)` for each. That a
stream which does not supply `n` samples is refused is DEDUCED from R255 (log 12): R226 does not list it. -/
def Obligations.WaveformDrawsItsSamples : Prop :=
  ∀ (s : State) (x y n : Byte) (c : Colour), s.cfgH.toNat ≤ 64 → s.fb.wf = true →
    (n.toNat ≤ s.stream.length →
      ∃ t, exec (.waveform x y n c) s = .next t ∧
        t = { s with fb := t.fb, stream := s.stream.drop n.toNat } ∧
        DrawnExactly c (fun a k => ∃ i smp, i < n.toNat ∧ s.stream[i]? = some smp ∧
          PlotsTo s.cfgH (x + BitVec.ofNat 8 i) (y - smp) a k) s.fb t.fb) ∧
    (s.stream.length < n.toNat → exec (.waveform x y n c) s = .refused .samplesTooShort)

/-! ## Glyph renderer -/

/-- R131, R132: SET_CURSOR writes the cursor alone, SET_FONT the font descriptor alone; a glyph width above
16 is refused. -/
def Obligations.CursorAndFontAreSetAlone : Prop :=
  (∀ (s : State) (x y : Byte), exec (.setCursor x y) s = .next { s with cx := x, cy := y }) ∧
  (∀ (s : State) (gw gh fid : Byte) (glen : HalfWord),
    (gw.toNat ≤ 16 → exec (.setFont gw gh glen fid) s =
      .next { s with font := { fid := fid, gw := gw, gh := gh, glen := glen } }) ∧
    (16 < gw.toNat → exec (.setFont gw gh glen fid) s = .refused .fontTooWide))

/-- R133, R134, R47: WRITE_CHAR of an encoded character whose rows the store answers paints every cell of
the glyph box, font bit set in `c` and font bit clear in the other colour, advances `CX` by the glyph
width, and changes nothing else. -/
def Obligations.WriteCharPaintsTheGlyphBox : Prop :=
  ∀ (s : State) (ch : Byte) (c : Colour) (rows : Nat → HalfWord),
    s.cfgH.toNat ≤ 64 → s.fb.wf = true → s.font.gw.toNat ≤ 16 →
    32 ≤ ch.toNat → (ch.toNat - 32 + 1) * s.font.gh.toNat ≤ s.font.glen.toNat →
    (∀ r, r < s.font.gh.toNat →
      fontRead s.fontRom s.font.fid ((ch.toNat - 32) * s.font.gh.toNat + r) = some (rows r)) →
    ∃ t, exec (.writeChar ch c) s = .next t ∧ t = { s with fb := t.fb, cx := s.cx + s.font.gw } ∧
      (∀ r col a k, r < s.font.gh.toNat → col < s.font.gw.toNat →
        PlotsTo s.cfgH (s.cx + BitVec.ofNat 8 col) (s.cy + BitVec.ofNat 8 r) a k →
        bitAt t.fb a k = if (rows r).getLsbD (15 - col) then isOn c else !isOn c) ∧
      (∀ a k, k < 8 →
        (∀ r col, r < s.font.gh.toNat → col < s.font.gw.toNat →
          ¬ PlotsTo s.cfgH (s.cx + BitVec.ofNat 8 col) (s.cy + BitVec.ofNat 8 r) a k) →
        bitAt t.fb a k = bitAt s.fb a k)

/-- R138: a character the font does not hold changes nothing at all; one it holds but whose rows the store
cannot answer is refused (R226). -/
def Obligations.UnencodedCharacterIsRejected : Prop :=
  ∀ (s : State) (ch : Byte) (c : Colour), s.cfgH.toNat ≤ 64 →
    ((ch.toNat < 32 ∨ s.font.glen.toNat < (ch.toNat - 32 + 1) * s.font.gh.toNat) →
      exec (.writeChar ch c) s = .next s) ∧
    (∀ r, 32 ≤ ch.toNat → (ch.toNat - 32 + 1) * s.font.gh.toNat ≤ s.font.glen.toNat → r < s.font.gh.toNat →
      fontRead s.fontRom s.font.fid ((ch.toNat - 32) * s.font.gh.toNat + r) = none →
      exec (.writeChar ch c) s = .refused .fontUnanswered)

/-- R51, R136, R137, R139: a string write is WRITE_CHAR of each character before the first `0x00`, in colour
ON or OFF; it reads the terminator, advances `CX` by the glyph width per encoded character, never moves
`CY` and changes nothing else; a stream that has no `0x00` is refused. -/
def Obligations.StringWritesEachCharacter : Prop :=
  (∀ s : State, s.cfgH.toNat ≤ 64 → (0x00 : Byte) ∉ s.stream →
    exec .writeString s = .refused .stringUnterminated ∧ exec .writeStringInv s = .refused .stringUnterminated) ∧
  ∀ (s : State) (chars rest : List Byte),
    s.cfgH.toNat ≤ 64 → (0x00 : Byte) ∉ chars → s.stream = chars ++ 0x00 :: rest →
    (∀ ch ∈ chars, GlyphAnswered s ch) →
    ∀ p ∈ [(Instr.writeString, Colour.on), (Instr.writeStringInv, Colour.off)],
      ∃ u, execAll (chars.map fun ch => .writeChar ch p.2) s = .next u ∧
        exec p.1 s = .next { u with stream := rest } ∧
        u = { s with fb := u.fb, cx := u.cx } ∧
        u.cx = s.cx + BitVec.ofNat 8 (s.font.gw.toNat *
          (chars.filter fun ch => glyphEncoded ch s.font.gh s.font.glen).length)

/-- R226 (6): a string one of whose characters needs a row word the store cannot answer is refused. -/
def Obligations.UnansweredStringIsRefused : Prop :=
  ∀ (s : State) (i : Instr), i = .writeString ∨ i = .writeStringInv → s.cfgH.toNat ≤ 64 →
    ∀ chars rest ch, (0x00 : Byte) ∉ chars → s.stream = chars ++ 0x00 :: rest → ch ∈ chars →
      ¬ GlyphAnswered s ch → exec i s = .refused .fontUnanswered

/-! ## Protocol sequencer -/

/-- R160, R163, R164, R165: INIT emits its 38 transactions in the fixed order, each answered by the
transport, clears the framebuffer, records every failure in `ERR` and sets `INIT_OK` to `ERR = 0`; above
height 64 it is refused. The bytes other than 0x21 and 0x22 are the spec's general-knowledge values (log 9). -/
def Obligations.InitRunsItsScript : Prop :=
  (∀ s : State, 64 < s.cfgH.toNat → exec .init s = .refused .configError) ∧
  ∀ s : State, s.cfgH.toNat ≤ 64 → s.fb.wf = true →
    let h := s.cfgH.toNat
    let script : List Tx :=
      ([0xAE, 0xD5, Config.pClkdiv, 0xA8, BitVec.ofNat 8 (h - 1), 0xD3, 0x00, 0x40, 0x8D, Config.pChargePump,
        0xA0, 0xC0, 0xDA,
        (match s.cfgCom with | .seqNoremap => 0x02 | .seqRemap => 0x22 | .altNoremap => 0x12 | .altRemap => 0x32),
        0x81, Config.pContrastDefault, 0xD9, Config.pPrecharge, 0xDB, Config.pVcomh, 0xA4, 0xA6, 0x20, 0x00,
        0x21, 0x00, 0x7F, 0x22, 0x00, BitVec.ofNat 8 (h / 8 - 1), 0xAF,
        0x21, 0x00, 0x7F, 0x22, 0x00, BitVec.ofNat 8 (h / 8 - 1)] : List Byte).map .cmd
      ++ [.data (List.replicate (16 * h) 0x00)]
    ∃ t, exec .init s = .next t ∧
      t = { s with fb := t.fb, err := t.err, initOk := t.initOk, log := t.log, answers := t.answers } ∧
      t.log = s.log ++ answered s script ∧
      t.answers = s.answers.drop 38 ∧
      (∀ a, a < 16 * h → t.fb.read a = 0x00) ∧ (∀ a, 16 * h ≤ a → t.fb.read a = s.fb.read a) ∧
      t.err = lastFailure s.err ((answered s script).map Transaction.status) ∧
      (t.initOk = true ↔ t.err = 0)

/-- R75, R45, R166, R167: UPDATE emits the window and then the whole framebuffer, byte `k` of the block being
`FB[k]`, whatever `INIT_OK` and `ERR` hold; it records failures and changes nothing else; above height 64 it
is refused. -/
def Obligations.UpdateSendsTheWindowAndTheBuffer : Prop :=
  (∀ s : State, 64 < s.cfgH.toNat → exec .update s = .refused .configError) ∧
  ∀ s : State, s.cfgH.toNat ≤ 64 →
    ∃ (t : State) (bytes : List Byte),
      bytes.length = 16 * s.cfgH.toNat ∧ (∀ k, k < 16 * s.cfgH.toNat → bytes[k]? = some (s.fb.read k)) ∧
      exec .update s = .next t ∧
      t = { s with err := t.err, log := t.log, answers := s.answers.drop 7 } ∧
      t.log = s.log ++ answered s
        ([.cmd 0x21, .cmd 0x00, .cmd 0x7F, .cmd 0x22, .cmd 0x00, .cmd (BitVec.ofNat 8 (s.cfgH.toNat / 8 - 1)),
          .data bytes]) ∧
      t.err = lastFailure s.err ((answered s
        ([.cmd 0x21, .cmd 0x00, .cmd 0x7F, .cmd 0x22, .cmd 0x00, .cmd (BitVec.ofNat 8 (s.cfgH.toNat / 8 - 1)),
          .data bytes])).map Transaction.status)

/-- R168 to R173: each runtime command emits its one or two command bytes, records a failure in `ERR`, and
changes nothing else; it runs under a configuration error too. The bytes are the spec's
general-knowledge values (log 9). -/
def Obligations.RuntimeCommandsEmitTheirBytes : Prop :=
  ∀ (s : State) (value : Byte) (v : Bool),
    ∀ p ∈ ([(.displayOff, [0xAE]), (.displayOn, [0xAF]), (.setBrightness value, [0x81, value]),
            (.invert v, [if v then 0xA7 else 0xA6]), (.flip v, [if v then 0xC8 else 0xC0]),
            (.mirror v, [if v then 0xA1 else 0xA0])] : List (Instr × List Byte)),
      ∃ t, exec p.1 s = .next t ∧
        t = { s with err := t.err, log := t.log, answers := s.answers.drop p.2.length } ∧
        t.log = s.log ++ answered s (p.2.map .cmd) ∧
        t.err = lastFailure s.err ((answered s (p.2.map .cmd)).map Transaction.status)

/-- R245, R165: INIT does not clear `ERR`, so an error left from before makes it fail whatever the transport
answers. -/
def Obligations.InitFailsOnAnEarlierError : Prop :=
  ∀ s : State, s.cfgH.toNat ≤ 64 → s.err ≠ 0 →
    ∃ t, exec .init s = .next t ∧ t.initOk = false ∧ t.err ≠ 0

/-- R256: a boot that the transport answers with 38 zero statuses emits 37 command bytes and one data block
of `N` zero bytes, and ends with `FB` all zero, `INIT_OK = 1`, `ERR = 0`, `CX = CY = 0`. -/
def Obligations.SuccessfulBoot : Prop :=
  ∀ (h : Byte) (com : Option ComPins) (addr : Option Byte) (s : State),
    construct h com addr = .next s → h.toNat ≤ 64 →
    ∃ t, exec .init { s with answers := List.replicate 38 0 } = .next t ∧
      (t.log.take 37).all (fun e => isCmd e.tx) = true ∧ t.log.length = 38 ∧
      (t.log.drop 37).map Transaction.tx = [.data (List.replicate (16 * h.toNat) 0x00)] ∧
      t.fb = [] ∧ t.initOk = true ∧ t.err = 0 ∧ t.cx = 0 ∧ t.cy = 0

/-! ## Facade -/

/-- R200, R201, R202: the two queries drive the result port and change nothing else, the read not clearing
`ERR`; CLEAR_ERRORS sets `ERR` to 0 and leaves `INIT_OK` and everything else. -/
def Obligations.FacadeReadsAndClears : Prop :=
  ∀ s : State,
    exec .isInitialized s = .next { s with results := s.results ++ [if s.initOk then 0x01 else 0x00] } ∧
    exec .getLastError s = .next { s with results := s.results ++ [s.err] } ∧
    exec .clearErrors s = .next { s with err := 0 }

/-! ## Rules about the whole machine -/

/-- R250: while `CFG_H > 64` every operation that reads or writes `FB` is refused, and no other operation is
refused for that reason. -/
def Obligations.ConfigurationErrorGate : Prop :=
  ∀ (i : Instr) (s : State), 64 < s.cfgH.toNat →
    (touchesFb i = true → exec i s = .refused .configError) ∧
    (touchesFb i = false → i.wellFormed = true → ∃ t, exec i s = .next t)

/-- An operation completes exactly within the host's contract of R226, R250 and R255; that a WAVEFORM stream
shorter than `n` is outside it is DEDUCED from R255 (log 12). -/
def Obligations.CompletesExactlyWithinTheContract : Prop :=
  ∀ (i : Instr) (s : State), (∃ t, exec i s = .next t) ↔ Admissible i s

/-- R161, R227: whatever operation but CLEAR_ERRORS completes, the log only grows, and `ERR` is the last
failing status of its transactions, or its previous value if none failed. -/
def Obligations.ErrHoldsTheLastFailure : Prop :=
  ∀ (i : Instr) (s t : State), exec i s = .next t → i ≠ .clearErrors →
    ∃ new, t.log = s.log ++ new ∧ t.err = lastFailure s.err (new.map Transaction.status)

/-- R202: CLEAR_ERRORS is the only operation that sets a nonzero `ERR` to 0. -/
def Obligations.OnlyClearErrorsClears : Prop :=
  ∀ (i : Instr) (s t : State), exec i s = .next t → s.err ≠ 0 → t.err = 0 → i = .clearErrors

/-- R165: only INIT writes `INIT_OK`, with 1 iff `ERR = 0` at its end. -/
def Obligations.OnlyInitWritesInitOk : Prop :=
  ∀ (i : Instr) (s t : State), exec i s = .next t →
    (i ≠ .init → t.initOk = s.initOk) ∧ (i = .init → (t.initOk = true ↔ t.err = 0))

/-- R240: no operation, and no step, changes the configuration registers. -/
def Obligations.ConfigurationRegistersNeverChange : Prop :=
  (∀ (i : Instr) (s t : State), exec i s = .next t →
    t.cfgH = s.cfgH ∧ t.cfgCom = s.cfgCom ∧ t.cfgAddr = s.cfgAddr) ∧
  (∀ s t : State, step s = .next t → t.cfgH = s.cfgH ∧ t.cfgCom = s.cfgCom ∧ t.cfgAddr = s.cfgAddr)

/-- R176: how many command bytes and data blocks each operation emits; every transaction carries `CFG_ADDR`
(R71). -/
def Obligations.TransactionCounts : Prop :=
  ∀ (i : Instr) (s t : State), exec i s = .next t →
    ∃ new, t.log = s.log ++ new ∧ (∀ e ∈ new, e.addr = s.cfgAddr) ∧
      ((new.filter fun e => isCmd e.tx).length, (new.filter fun e => !isCmd e.tx).length) =
        match i with
        | .init => (37, 1)
        | .update => (6, 1)
        | .setBrightness _ => (2, 0)
        | .displayOff => (1, 0)
        | .displayOn => (1, 0)
        | .invert _ => (1, 0)
        | .flip _ => (1, 0)
        | .mirror _ => (1, 0)
        | _ => (0, 0)

/-- R32: the result port is driven only by IS_INITIALIZED and GET_LAST_ERROR, the cursor moved only by the
operations that name it, the font written only by SET_FONT, and the framebuffer only by the operations of
R250 other than UPDATE. -/
def Obligations.WhoWritesWhichRegister : Prop :=
  ∀ (i : Instr) (s t : State), exec i s = .next t →
    (i ≠ .isInitialized → i ≠ .getLastError → t.results = s.results) ∧
    ((∀ x y, i ≠ .setCursor x y) → t.cy = s.cy) ∧
    ((∀ x y, i ≠ .setCursor x y) → (∀ ch c, i ≠ .writeChar ch c) → i ≠ .writeString → i ≠ .writeStringInv →
      t.cx = s.cx) ∧
    ((∀ gw gh glen fid, i ≠ .setFont gw gh glen fid) → t.font = s.font) ∧
    (touchesFb i = false ∨ i = .update → t.fb = s.fb) ∧
    t.port = s.port ∧ t.fontRom = s.fontRom

/-- R162: what a protocol operation emits depends only on `CFG_H`, `CFG_COM`, the operand and `FB`: not on
the cursor, the font, `ERR`, `INIT_OK` or the transport's answers. -/
def Obligations.ScriptIgnoresErrorsAndAnswers : Prop :=
  ∀ (i : Instr) (s s' t t' : State),
    s.cfgH = s'.cfgH → s.cfgCom = s'.cfgCom → s.fb = s'.fb →
    exec i s = .next t → exec i s' = .next t' →
    (t.log.map Transaction.tx).drop s.log.length = (t'.log.map Transaction.tx).drop s'.log.length

/-! ## Invariants and runs -/

/-- Every step keeps the invariant: the height legal, the framebuffer canonical and inside `0 .. N-1`, the
font width legal, `INIT_OK` 0 under a configuration error, every transaction with `CFG_ADDR` and every
data block of `N` bytes. -/
def Obligations.StepKeepsInvariant : Prop :=
  ∀ s t : State, Inv s → step s = .next t → Inv t

/-- R166, R246: every step keeps it true of the whole log that each data block stands right after the six
bytes of the addressing window. -/
def Obligations.StepKeepsWindowsBeforeData : Prop :=
  WindowsPrecedeData State.reset ∧
  ∀ s t : State, WindowsPrecedeData s → step s = .next t → WindowsPrecedeData t

/-- R222: a construction height above 64 records `CFG_ERR`, and then no run, of any length and whatever the host issues, CLEAR_ERRORS
included, ever makes `INIT_OK` true. -/
def Obligations.ConfigurationErrorNeverInitializes : Prop :=
  ∀ (h : Byte) (com : Option ComPins) (addr : Option Byte) (s : State) (events : List HostEvent) (n : Nat)
    (t : State), 64 < h.toNat → construct h com addr = .next s →
    s.err = Config.cfgErr ∧
    (Sys2Proof.core.run n { s with port := events } = .next t → t.initOk = false)

/-- A block of legal height whose host issues any words at all, each decoding to an operation that reads no
stream and no font and has a legal operand, or being reserved, never leaves the contract. -/
def Obligations.StreamlessWordsRunSafely : Prop :=
  ∀ s : State, s.cfgH.toNat ≤ 64 →
    (∀ e ∈ s.port, ∀ w stream, e = .operation w stream → ∀ i, decode w = .ok i →
      i.wellFormed = true ∧ i ≠ .drawImage ∧ i ≠ .writeString ∧ i ≠ .writeStringInv ∧
      (∀ x y n c, i ≠ .waveform x y n c) ∧ (∀ ch c, i ≠ .writeChar ch c)) →
    SafeRun s

/-- R222, R250: a block above 64 rows with `INIT_OK` 0 stays so over every step: the step lemma of
ConfigurationErrorNeverInitializes. -/
def Obligations.StepKeepsConfigurationError : Prop :=
  ∀ s t : State, 64 < s.cfgH.toNat → s.initOk = false → step s = .next t →
    64 < t.cfgH.toNat ∧ t.initOk = false

/-- A block of height up to 64 whose pending words read no stream and no font steps to a block of the same
kind: the step lemma of StreamlessWordsRunSafely. -/
def Obligations.StepKeepsStreamlessPort : Prop :=
  ∀ s : State, s.cfgH.toNat ≤ 64 → StreamlessPort s →
    ∃ t, step s = .next t ∧ t.cfgH.toNat ≤ 64 ∧ StreamlessPort t
end

