-- ==== Sys2Proof/Laws/Assembly.lean ====
section
/-! SUPPORT. Reading the lines of the assembler (R68): operands, operand lists, streams, a line's tokens, and the characters that write them. -/

namespace Sys2Proof.Machine

@[simp] theorem byteOperand_num (x : Byte) : byteOperand (.num x.toNat) = some x := by simp [byteOperand, x.isLt]

@[simp] theorem halfOperand_num (x : HalfWord) : halfOperand (.num x.toNat) = some x := by
  simp [halfOperand, x.isLt]

/-- Operands with commas between them are read as they are. -/
theorem operandList_intersperse (ts : List Token) (h : ∀ t ∈ ts, t ≠ .comma) :
    operandList (ts.intersperse .comma) = some ts := by
  induction ts with
  | nil => rfl
  | cons t ts ih =>
    cases ts with
    | nil => rfl
    | cons u us =>
      have ih := ih (fun t ht => h t (by simp [ht]))
      simp only [List.intersperse] at ih ⊢
      cases us with
      | nil => simp [operandList]
      | cons w ws =>
        simp only [List.intersperse] at ih ⊢
        rw [operandList, ih]; rfl

theorem bracketed_append (ts : List Token) (h : ∀ t ∈ ts, t ≠ .closeBracket) :
    bracketed (ts ++ [.closeBracket]) = some ts := by
  induction ts with
  | nil => rfl
  | cons t ts ih =>
    have ht := h t (by simp)
    have ih := ih (fun t ht => h t (by simp [ht]))
    rw [List.cons_append]
    cases t with
    | closeBracket => exact absurd rfl ht
    | _ => rw [bracketed, ih]; rfl; intro h1 h2; cases h1

theorem mem_intersperse (l : List Token) (t : Token) : t ∈ l.intersperse .comma → t = .comma ∨ t ∈ l := by
  induction l with
  | nil => simp
  | cons a l ih => cases l with
    | nil => simp; intro h; exact .inr h
    | cons b l => simp only [List.intersperse, List.mem_cons] at *; tauto

/-- Bytes in brackets are the stream they list. -/
theorem streamBytes_brackets (bs : List Byte) :
    streamBytes (.openBracket :: ((bs.map fun x => Token.num x.toNat).intersperse .comma ++ [.closeBracket])) =
      some bs := by
  have hm : (bs.map fun x => Token.num x.toNat).mapM byteOperand = some bs := by
    induction bs with
    | nil => rfl
    | cons b bs ih => simp [ih]
  rw [streamBytes, bracketed_append, Option.bind_some, operandList_intersperse, Option.bind_some, hm]
  · simp
  · intro t ht
    rcases mem_intersperse _ _ ht with rfl | h
    · simp
    · obtain ⟨_, _, rfl⟩ := List.mem_map.mp h; simp

theorem splitAtStream_none (ts : List Token) (h : ∀ t ∈ ts, t ≠ .stream) : splitAtStream ts = (ts, none) := by
  induction ts with
  | nil => rfl
  | cons t ts ih =>
    have := h t (by simp)
    cases t <;> first | exact absurd rfl this | simp [splitAtStream, ih (fun t ht => h t (by simp [ht]))]

theorem splitAtStream_some (ts us : List Token) (h : ∀ t ∈ ts, t ≠ .stream) :
    splitAtStream (ts ++ .stream :: us) = (ts, some us) := by
  induction ts with
  | nil => rfl
  | cons t ts ih =>
    have := h t (by simp)
    cases t <;> first | exact absurd rfl this | simp [splitAtStream, ih (fun t ht => h t (by simp [ht]))]

theorem intersperse_ne_stream (ops : List Token) (h : ∀ t ∈ ops, t ≠ .comma ∧ t ≠ .stream) :
    ∀ t ∈ ops.intersperse .comma, t ≠ .stream := by
  intro t ht
  rcases mem_intersperse _ _ ht with rfl | h'
  · simp
  · exact (h t h').2

/-- A line without a stream: its mnemonic's row reads its operands. -/
theorem parseTokens_line {name : String} {ops : List Token} {row : String × (List Token → Option Instr)} {i : Instr}
    (hf : mnemonicTable.find? (fun row => decide (codesOf row.1 = codesOf name)) = some row)
    (hs : ∀ t ∈ ops, t ≠ .comma ∧ t ≠ .stream) (hr : row.2 ops = some i) :
    parseTokens (.name (codesOf name) :: ops.intersperse .comma) = some (i, []) := by
  rw [parseTokens, splitAtStream_none]
  · simp only [parseOperation, hf, Option.bind_some, operandList_intersperse ops (fun t ht => (hs t ht).1), hr]
  · intro t ht
    rcases List.mem_cons.mp ht with rfl | h
    · simp
    · exact intersperse_ne_stream ops hs t h

/-- A line with a stream, of an operation that reads one. -/
theorem parseTokens_line_stream {name : String} {ops us : List Token} {row : String × (List Token → Option Instr)}
    {i : Instr} {bs : List Byte}
    (hf : mnemonicTable.find? (fun row => decide (codesOf row.1 = codesOf name)) = some row)
    (hs : ∀ t ∈ ops, t ≠ .comma ∧ t ≠ .stream) (hr : row.2 ops = some i) (hu : streamBytes us = some bs)
    (hi : readsStream i = true) :
    parseTokens (.name (codesOf name) :: ops.intersperse .comma ++ .stream :: us) = some (i, bs) := by
  rw [parseTokens, splitAtStream_some]
  · simp only [parseOperation, hf, Option.bind_some, operandList_intersperse ops (fun t ht => (hs t ht).1), hr, hi, hu]; simp
  · intro t ht
    rcases List.mem_cons.mp ht with rfl | h
    · simp
    · exact intersperse_ne_stream ops hs t h

/-! ## From characters to tokens -/

/-- Reading digits one by one gives the number they write. -/
theorem digitsValue_eq (base : Nat) (ds cs : List Nat)
    (h : List.Forall₂ (fun d c => digitValue base c = some d) ds cs) (n : Nat) :
    digitsValue base n cs = some (ds.foldl (fun n d => base * n + d) n) := by
  induction h generalizing n with
  | nil => rfl
  | cons h _ ih => rw [digitsValue, h, Option.bind_some, ih]; rfl

theorem digitValue_hex {d c : Nat} (h : HexDigit d c) : digitValue 16 c = some d := by
  unfold HexDigit at h
  unfold digitValue
  split
  · congr 1; omega
  split
  · congr 1; omega
  split
  · congr 1; omega
  · omega

theorem digitValue_dec {d : Nat} (h : d < 10) : digitValue 10 (0x30 + d) = some d := by
  unfold digitValue; rw [if_pos (by omega)]; congr 1; omega

/-- A word is read as the token it spells, and all its characters are word characters. -/
theorem wordToken_of_spelling {t : Token} {w : List Nat} (h : WordSpelling t w) :
    wordToken w = some t ∧ ∃ c cs, w = c :: cs ∧ isWordCode c = true ∧ ∀ x ∈ cs, isWordCode x = true := by
  have dig : ∀ d, d < 10 → isWordCode (0x30 + d) = true := by
    intro d hd; simp [isWordCode]; omega
  cases h with
  | name h1 h2 h3 =>
    refine ⟨?_, _, _, rfl, h1, h3⟩
    unfold wordToken
    split
    · contradiction
    · rename_i heq; simp only [List.cons.injEq] at heq; omega
    · rename_i c' cs' _ heq; simp only [List.cons.injEq] at heq; obtain ⟨rfl, rfl⟩ := heq; rw [if_neg h2]
  | @decimal d ds hd =>
    refine ⟨?_, _, _, rfl, dig d (hd d (by simp)), ?_⟩
    · have hf : List.Forall₂ (fun d c => digitValue 10 c = some d) (d :: ds) ((d :: ds).map (0x30 + ·)) := by
        rw [List.forall₂_map_right_iff]
        exact List.forall₂_same.mpr fun x hx => digitValue_dec (hd x hx)
      have h0 := digitsValue_eq 10 _ _ hf 0
      rw [List.map_cons] at h0 ⊢
      unfold wordToken
      split
      · contradiction
      · rename_i heq
        simp only [List.cons.injEq] at heq
        cases ds with
        | nil => simp at heq
        | cons e es => have := hd e (by simp); simp at heq; omega
      · rename_i c' cs' _ heq
        simp only [List.cons.injEq] at heq
        obtain ⟨rfl, rfl⟩ := heq
        have := hd d (by simp)
        rw [if_pos (by omega), h0]; rfl
    · intro x hx
      obtain ⟨e, he, rfl⟩ := List.mem_map.mp hx
      exact dig e (hd e (by simp [he]))
  | @hex d c ds cs h =>
    refine ⟨?_, _, _, rfl, by decide, ?_⟩
    · have h0 := digitsValue_eq 16 _ _ (h.imp fun _ _ => digitValue_hex) 0
      show (digitsValue 16 0 (c :: cs)).map Token.num = _
      rw [h0]; rfl
    · have hw : ∀ {ds cs : List Nat}, List.Forall₂ HexDigit ds cs → ∀ x ∈ cs, isWordCode x = true := by
        intro ds cs h
        induction h with
        | nil => simp
        | cons h _ ih =>
          intro x hx
          rcases List.mem_cons.mp hx with rfl | hx
          · unfold HexDigit at h; simp [isWordCode]; omega
          · exact ih x hx
      intro x hx
      rcases List.mem_cons.mp hx with rfl | hx
      · decide
      · exact hw h x hx

theorem lexFrom_cons (m : LexMode) (c : Nat) (cs : List Nat) :
    lexFrom m (c :: cs) =
      (lexStep m c).bind fun p => (lexFrom p.2 cs).map fun ts => p.1 ++ ts := rfl

theorem lexFrom_word_end (rev cs : List Nat) (h : ∀ c ∈ cs.head?, isWordCode c = false) :
    lexFrom (.word rev) cs =
      (wordToken rev.reverse).bind fun t => (lexFrom .start cs).map fun ts => t :: ts := by
  cases cs with
  | nil => simp only [lexFrom, lexEnd]; cases wordToken rev.reverse <;> rfl
  | cons c cs =>
    have hc := h c (by simp)
    rw [lexFrom_cons, lexFrom_cons]
    simp only [lexStep, hc, Bool.false_eq_true, if_false]
    cases wordToken rev.reverse with
    | none => rfl
    | some t => cases lexBegin c with
      | none => rfl
      | some p => cases h : lexFrom p.2 cs <;> simp [h]

/-- A word is read to its end, and the rest of the line after it. -/
theorem lexFrom_word (rev w cs : List Nat) (hw : ∀ x ∈ w, isWordCode x = true)
    (h : ∀ c ∈ cs.head?, isWordCode c = false) :
    lexFrom (.word rev) (w ++ cs) =
      (wordToken (rev.reverse ++ w)).bind fun t => (lexFrom .start cs).map fun ts => t :: ts := by
  induction w generalizing rev with
  | nil => rw [List.nil_append, lexFrom_word_end _ _ h, List.append_nil]
  | cons c w ih =>
    rw [List.cons_append, lexFrom_cons]
    simp only [lexStep, hw c (by simp), if_true, Option.bind_some]
    rw [ih _ fun x hx => hw x (by simp [hx])]
    simp

/-- A quoted text is read to its closing quote. -/
theorem lexFrom_text (rev w cs : List Nat) (hw : ∀ x ∈ w, x < 128 ∧ x ≠ 0x22) :
    lexFrom (.text rev) (w ++ 0x22 :: cs) =
      (lexFrom .start cs).map fun ts => .text (rev.reverse ++ w) :: ts := by
  induction w generalizing rev with
  | nil => rw [List.nil_append, lexFrom_cons]; simp [lexStep]
  | cons c w ih =>
    have hc := hw c (by simp)
    rw [List.cons_append, lexFrom_cons]
    simp only [lexStep, hc.1, hc.2, if_true, if_false, Option.bind_some]
    rw [ih _ fun x hx => hw x (by simp [hx])]
    simp
    rfl

theorem lexFrom_comment (cs : List Nat) : lexFrom .comment cs = some [] := by
  induction cs with
  | nil => rfl
  | cons c cs ih => rw [lexFrom_cons]; simp [lexStep, ih]

theorem lexBegin_word {c : Nat} (h : isWordCode c = true) : lexBegin c = some ([], .word [c]) := if_pos h

/-- Every way to write a line's tokens is read as them. -/
theorem lexFrom_of_spelling {ts : List Token} {cs : List Nat} (h : LineSpelling ts cs) : lexFrom .start cs = some ts := by
  induction h with
  | done => rfl
  | comment cs => rw [lexFrom_cons]; simp [lexStep, lexBegin, isWordCode, lexFrom_comment]
  | blank hc _ ih => rcases hc with rfl | rfl <;> (rw [lexFrom_cons]; simp [lexStep, lexBegin, isWordCode, ih])
  | comma _ ih => rw [lexFrom_cons]; simp [lexStep, lexBegin, isWordCode, ih]
  | openBracket _ ih => rw [lexFrom_cons]; simp [lexStep, lexBegin, isWordCode, ih]
  | closeBracket _ ih => rw [lexFrom_cons]; simp [lexStep, lexBegin, isWordCode, ih]
  | stream _ ih => rw [lexFrom_cons]; simp [lexStep, lexBegin, isWordCode, lexFrom_cons, ih]
  | text hw _ ih => rw [lexFrom_cons]; simp [lexStep, lexBegin, isWordCode, lexFrom_text _ _ _ hw, ih]
  | quoted hc _ ih => rw [lexFrom_cons]; simp [lexStep, lexBegin, isWordCode, lexFrom_cons, ih, hc]
  | word hw hs _ ih =>
    obtain ⟨ht, c, w, rfl, hc, hcs⟩ := wordToken_of_spelling hw
    rw [List.cons_append, lexFrom_cons]
    simp only [lexStep, lexBegin_word hc, Option.bind_some]
    rw [lexFrom_word _ _ _ hcs hs]
    simp [ht, ih]

end Sys2Proof.Machine
end

