-- ==== Sys2Proof/Laws/Memory.lean ====
section
/-! SUPPORT. The framebuffer memory's laws: read after write, the canonical form and its uniqueness, the whole-buffer write. -/

namespace Sys2Proof.Machine

namespace Memory

@[simp] theorem read_nil (a : Nat) : read [] a = unlistedByte := rfl

theorem read_cons (b : Nat) (v : Byte) (m : Memory) (a : Nat) :
    read ((b, v) :: m) a = if a < b then unlistedByte else if a = b then v else read m a := rfl

theorem wfFrom_cons {lo a : Nat} {v : Byte} {m : Memory} :
    wfFrom lo ((a, v) :: m) = true ↔ lo ≤ a ∧ v ≠ unlistedByte ∧ wfFrom (a + 1) m = true := by
  simp [wfFrom, and_assoc]

theorem wfFrom_mono {m : Memory} {lo hi : Nat} (h : lo ≤ hi) (hw : wfFrom hi m = true) :
    wfFrom lo m = true := by
  cases m with
  | nil => rfl
  | cons c m => obtain ⟨a, v⟩ := c; rw [wfFrom_cons] at *; exact ⟨by omega, hw.2⟩

/-- An address below every listed one reads as unlisted. -/
theorem read_of_lt {m : Memory} {lo a : Nat} (hw : wfFrom lo m = true) (h : a < lo) :
    read m a = unlistedByte := by
  cases m with
  | nil => rfl
  | cons c m =>
    obtain ⟨b, v⟩ := c
    rw [wfFrom_cons] at hw
    rw [read_cons, if_pos (by omega)]

theorem wfFrom_write {m : Memory} {lo a : Nat} (v : Byte) (hw : wfFrom lo m = true) (h : lo ≤ a) :
    wfFrom lo (write m a v) = true := by
  induction m generalizing lo with
  | nil =>
    unfold write
    split
    · rfl
    · rw [wfFrom_cons]; exact ⟨h, ‹_›, rfl⟩
  | cons c m ih =>
    obtain ⟨b, w⟩ := c
    have hw' := hw
    rw [wfFrom_cons] at hw
    unfold write
    split_ifs with h1 h2 h3 h4
    · exact hw'
    · rw [wfFrom_cons, wfFrom_cons]; exact ⟨h, h2, by omega, hw.2.1, hw.2.2⟩
    · exact wfFrom_mono (by omega) hw.2.2
    · rw [wfFrom_cons]; subst h3; exact ⟨h, h4, hw.2.2⟩
    · rw [wfFrom_cons]; exact ⟨hw.1, hw.2.1, ih hw.2.2 (by omega)⟩

/-- A write keeps the canonical form. -/
theorem wf_write {m : Memory} (a : Nat) (v : Byte) (hw : m.wf = true) : (m.write a v).wf = true :=
  wfFrom_write v hw (Nat.zero_le a)

theorem read_write_from {m : Memory} {lo : Nat} (a : Nat) (v : Byte) (hw : wfFrom lo m = true) (a' : Nat) :
    read (write m a v) a' = if a' = a then v else read m a' := by
  induction m generalizing lo with
  | nil =>
    unfold write
    split
    · split <;> simp_all
    · rw [read_cons]; split_ifs <;> first | rfl | omega
  | cons c m ih =>
    obtain ⟨b, w⟩ := c
    rw [wfFrom_cons] at hw
    have hlt : ∀ x, x ≤ b → read m x = unlistedByte := fun x hx => read_of_lt hw.2.2 (by omega)
    rcases Nat.lt_trichotomy a b with hab | hab | hab
    · by_cases hv : v = unlistedByte
      · rw [write, if_pos hab, if_pos hv]
        by_cases ha : a' = a
        · rw [if_pos ha, read_cons, if_pos (by omega), hv]
        · rw [if_neg ha]
      · rw [write, if_pos hab, if_neg hv, read_cons, read_cons]
        split_ifs <;> first | rfl | omega
    · subst hab
      by_cases hv : v = unlistedByte
      · rw [write, if_neg (lt_irrefl a), if_pos rfl, if_pos hv, read_cons]
        by_cases ha : a' = a
        · rw [if_pos ha, ha, hlt a (le_refl a), hv]
        · rw [if_neg ha, if_neg ha]
          split_ifs with h1
          · exact hlt a' (by omega)
          · rfl
      · rw [write, if_neg (lt_irrefl a), if_pos rfl, if_neg hv, read_cons, read_cons]
        split_ifs <;> first | rfl | omega
    · rw [write, if_neg (by omega), if_neg (by omega), read_cons, read_cons, ih hw.2.2]
      split_ifs <;> first | rfl | omega

/-- Reading after a write: the byte written there, every other byte as before. -/
theorem read_write {m : Memory} (hw : m.wf = true) (a : Nat) (v : Byte) (a' : Nat) :
    (m.write a v).read a' = if a' = a then v else m.read a' :=
  read_write_from a v hw a'

/-- Equal contents are equal data: the canonical form is unique. -/
theorem ext_read_from {m m' : Memory} {lo : Nat} (hw : wfFrom lo m = true) (hw' : wfFrom lo m' = true)
    (h : ∀ a, read m a = read m' a) : m = m' := by
  induction m generalizing lo m' with
  | nil =>
    cases m' with
    | nil => rfl
    | cons c m' =>
      obtain ⟨b, v⟩ := c
      rw [wfFrom_cons] at hw'
      have := h b
      simp [read_cons] at this
      exact absurd this.symm hw'.2.1
  | cons c m ih =>
    obtain ⟨a, v⟩ := c
    rw [wfFrom_cons] at hw
    cases m' with
    | nil =>
      have := h a
      simp [read_cons] at this
      exact absurd this hw.2.1
    | cons c' m' =>
      obtain ⟨b, w⟩ := c'
      rw [wfFrom_cons] at hw'
      have hab : a = b := by
        rcases Nat.lt_trichotomy a b with hl | he | hg
        · have := h a; simp [read_cons, hl] at this; exact absurd this hw.2.1
        · exact he
        · have := h b; simp [read_cons, hg] at this; exact absurd this.symm hw'.2.1
      subst hab
      have hv : v = w := by simpa [read_cons] using h a
      subst hv
      congr 1
      refine ih hw.2.2 hw'.2.2 fun x => ?_
      rcases Nat.lt_or_ge a x with hx | hx
      · have := h x
        simpa [read_cons, show ¬ x < a by omega, show ¬ x = a by omega] using this
      · rw [read_of_lt hw.2.2 (by omega), read_of_lt hw'.2.2 (by omega)]

theorem ext_read {m m' : Memory} (hw : m.wf = true) (hw' : m'.wf = true)
    (h : ∀ a, m.read a = m'.read a) : m = m' := ext_read_from hw hw' h

/-! ## Bounds -/

theorem below_cons {b n : Nat} {w : Byte} {m : Memory} :
    below ((b, w) :: m) n = true ↔ b < n ∧ m.below n = true := by simp [below]

theorem below_write {m : Memory} {n a : Nat} (v : Byte) (hb : m.below n = true) (h : a < n) :
    (m.write a v).below n = true := by
  induction m with
  | nil => unfold write; split <;> simp [below, h]
  | cons c m ih =>
    obtain ⟨b, w⟩ := c
    have hb' := hb
    rw [below_cons] at hb
    unfold write
    split_ifs
    · exact hb'
    · rw [below_cons]; exact ⟨h, hb'⟩
    · exact hb.2
    · rw [below_cons]; exact ⟨h, hb.2⟩
    · rw [below_cons]; exact ⟨hb.1, ih hb.2⟩

/-- A byte at `n` or above reads as unlisted where every listed address is below `n`. -/
theorem read_of_below {m : Memory} {n a : Nat} (hb : m.below n = true) (h : n ≤ a) :
    m.read a = unlistedByte := by
  induction m with
  | nil => rfl
  | cons c m ih =>
    obtain ⟨b, w⟩ := c
    rw [below_cons] at hb
    rw [read_cons, if_neg (by omega), if_neg (by omega), ih hb.2]

/-! ## The whole-buffer write -/

theorem wfFrom_cellsFrom (a : Nat) (bs : List Byte) : wfFrom a (cellsFrom a bs) = true := by
  induction bs generalizing a with
  | nil => rfl
  | cons v bs ih =>
    unfold cellsFrom
    split
    · exact wfFrom_mono (by omega) (ih (a + 1))
    · rw [wfFrom_cons]; exact ⟨le_refl _, ‹_›, ih (a + 1)⟩

theorem below_cellsFrom (a : Nat) (bs : List Byte) : below (cellsFrom a bs) (a + bs.length) = true := by
  induction bs generalizing a with
  | nil => rfl
  | cons v bs ih =>
    have h := ih (a + 1)
    rw [show a + 1 + bs.length = a + (v :: bs).length by simp; omega] at h
    unfold cellsFrom
    split
    · exact h
    · rw [below_cons]; exact ⟨by simp, h⟩

theorem wfFrom_filter {m : Memory} {lo : Nat} (p : Host.Cell → Bool) (hw : wfFrom lo m = true) :
    wfFrom lo (m.filter p) = true := by
  induction m generalizing lo with
  | nil => rfl
  | cons c m ih =>
    obtain ⟨a, v⟩ := c
    rw [wfFrom_cons] at hw
    rw [List.filter_cons]
    split
    · rw [wfFrom_cons]; exact ⟨hw.1, hw.2.1, ih hw.2.2⟩
    · exact wfFrom_mono (by omega) (ih hw.2.2)

theorem wfFrom_append {m m' : Memory} {lo n : Nat} (hw : wfFrom lo m = true) (hb : m.below n = true)
    (hw' : wfFrom n m' = true) (h : lo ≤ n) : wfFrom lo (m ++ m') = true := by
  induction m generalizing lo with
  | nil => exact wfFrom_mono h hw'
  | cons c m ih =>
    obtain ⟨a, v⟩ := c
    rw [wfFrom_cons] at hw
    rw [below_cons] at hb
    rw [List.cons_append, wfFrom_cons]
    exact ⟨hw.1, hw.2.1, ih hw.2.2 hb.2 (by omega)⟩

theorem wfFrom_filter_ge {m : Memory} {lo n : Nat} (hw : wfFrom lo m = true) :
    wfFrom n (m.filter fun c => decide (n ≤ c.1)) = true := by
  induction m generalizing lo with
  | nil => rfl
  | cons c m ih =>
    obtain ⟨a, v⟩ := c
    rw [wfFrom_cons] at hw
    rw [List.filter_cons]
    split
    · rw [wfFrom_cons]
      exact ⟨by simp_all, hw.2.1, wfFrom_filter _ hw.2.2⟩
    · exact ih hw.2.2

/-- The whole-buffer write keeps the canonical form. -/
theorem wf_load {m : Memory} (bs : List Byte) (hw : m.wf = true) : (m.load bs).wf = true := by
  refine wfFrom_append (wfFrom_cellsFrom 0 bs) ?_ (wfFrom_filter_ge hw) (Nat.zero_le _)
  simpa using below_cellsFrom 0 bs

theorem below_load {m : Memory} {n : Nat} (bs : List Byte) (hb : m.below n = true) (h : bs.length ≤ n) :
    (m.load bs).below n = true := by
  have h1 := below_cellsFrom 0 bs
  simp only [below, List.all_eq_true, decide_eq_true_eq, load, List.mem_append, List.mem_filter] at *
  rintro x (hx | hx)
  · have := h1 x hx; omega
  · exact hb x hx.1

theorem read_cellsFrom_append (a : Nat) (bs : List Byte) (m' : Memory)
    (h' : ∀ c ∈ m', a + bs.length ≤ c.1) (i : Nat) (hi : i < bs.length) :
    read (cellsFrom a bs ++ m') (a + i) = bs[i] := by
  induction bs generalizing a i with
  | nil => simp at hi
  | cons v bs ih =>
    have hlow : ∀ (l : Memory) (x lo : Nat), x < lo → (∀ c ∈ l, lo ≤ c.1) → read l x = unlistedByte := by
      intro l x lo hx hl
      cases l with
      | nil => rfl
      | cons c l =>
        obtain ⟨b, w⟩ := c
        have := hl (b, w) (by simp)
        rw [read_cons, if_pos (by simp at this; omega)]
    have hge : ∀ c ∈ cellsFrom (a + 1) bs ++ m', a + 1 ≤ c.1 := by
      intro c hc
      rw [List.mem_append] at hc
      rcases hc with hc | hc
      · have : ∀ (m : Memory) (lo : Nat), wfFrom lo m = true → ∀ c ∈ m, lo ≤ c.1 := by
          intro m
          induction m with
          | nil => simp
          | cons d m ihm =>
            obtain ⟨b, w⟩ := d
            intro lo hw c hc
            rw [wfFrom_cons] at hw
            rcases List.mem_cons.mp hc with rfl | hc
            · exact hw.1
            · have := ihm _ hw.2.2 c hc; omega
        exact this _ _ (wfFrom_cellsFrom (a + 1) bs) c hc
      · have := h' c hc; simp at this; omega
    unfold cellsFrom
    cases i with
    | zero =>
      split
      · rename_i hv; simp only [Nat.add_zero, List.getElem_cons_zero]
        rw [hlow _ a (a + 1) (by omega) hge, hv]
      · simp [read_cons]
    | succ i =>
      have hi' : i < bs.length := by simpa using hi
      have := ih (a + 1) (fun c hc => by have := h' c hc; simp at this; omega) i hi'
      rw [show a + 1 + i = a + (i + 1) by omega] at this
      split
      · simpa using this
      · rw [List.cons_append, read_cons, if_neg (by omega), if_neg (by omega)]; simpa using this

theorem read_append_ge {m m' : Memory} {n a : Nat} (hb : m.below n = true) (h : n ≤ a) :
    read (m ++ m') a = read m' a := by
  induction m with
  | nil => rfl
  | cons c m ih =>
    obtain ⟨b, w⟩ := c
    rw [below_cons] at hb
    rw [List.cons_append, read_cons, if_neg (by omega), if_neg (by omega), ih hb.2]

/-- The bytes of a whole-buffer write. -/
theorem read_load_lt (m : Memory) (bs : List Byte) (a : Nat) (h : a < bs.length) :
    (m.load bs).read a = bs[a] := by
  have := read_cellsFrom_append 0 bs (m.filter fun c => decide (bs.length ≤ c.1)) (by simp) a h
  simpa [load] using this

/-- Bytes past a whole-buffer write read as before. -/
theorem read_load_ge {m : Memory} {lo : Nat} (bs : List Byte) (a : Nat) (hw : wfFrom lo m = true) (h : bs.length ≤ a) :
    (m.load bs).read a = m.read a := by
  unfold load
  rw [read_append_ge (n := bs.length) (by simpa using below_cellsFrom 0 bs) h]
  induction m generalizing lo with
  | nil => rfl
  | cons c m ih =>
    obtain ⟨b, w⟩ := c
    rw [wfFrom_cons] at hw
    rw [List.filter_cons]
    split
    · rw [read_cons, read_cons, ih hw.2.2]
    · rename_i hb
      simp only [decide_eq_true_eq, not_le] at hb
      rw [ih hw.2.2, read_cons, if_neg (by omega), if_neg (by omega)]

/-- The loop of R91 and R94: `FBWrite(i, bs[i])` for `i` from `a` on. -/
def writesFrom (a : Nat) (m : Memory) : List Byte → Memory
  | [] => m
  | v :: bs => writesFrom (a + 1) (m.write a v) bs

theorem wf_writesFrom {m : Memory} (a : Nat) (bs : List Byte) (hw : m.wf = true) :
    (writesFrom a m bs).wf = true := by
  induction bs generalizing a m with
  | nil => exact hw
  | cons v bs ih => exact ih (a + 1) (wf_write a v hw)

theorem read_writesFrom {m : Memory} (a : Nat) (bs : List Byte) (hw : m.wf = true) (x : Nat) :
    (writesFrom a m bs).read x =
      if h : a ≤ x ∧ x < a + bs.length then bs[x - a]'(by omega) else m.read x := by
  induction bs generalizing a m with
  | nil => simp [writesFrom, show ¬ (a ≤ x ∧ x < a) by omega]
  | cons v bs ih =>
    rw [writesFrom, ih (a + 1) (wf_write a v hw), read_write hw]
    by_cases hx : x = a
    · subst hx; simp
    · by_cases h : a + 1 ≤ x ∧ x < a + 1 + bs.length
      · rw [dif_pos h, dif_pos (by simp; omega)]
        rw [List.getElem_cons, dif_neg (by omega)]; rfl
      · rw [dif_neg h, dif_neg (by simp; omega), if_neg hx]

/-- The whole-buffer write is the loop of single-byte writes the spec gives (R91, R94). -/
theorem load_eq_writes {m : Memory} (bs : List Byte) (hw : m.wf = true) :
    m.load bs = writesFrom 0 m bs := by
  refine ext_read (wf_load bs hw) (wf_writesFrom 0 bs hw) fun a => ?_
  rw [read_writesFrom 0 bs hw]
  by_cases h : a < bs.length
  · rw [read_load_lt _ _ _ h, dif_pos (by omega)]; rfl
  · rw [read_load_ge bs a hw (by omega), dif_neg (by omega)]

/-- A buffer cleared over its whole size lists nothing (R92). -/
theorem load_zero (m : Memory) (n : Nat) (h : m.below n = true) : m.load (List.replicate n 0) = [] := by
  have h1 : ∀ a n, cellsFrom a (List.replicate n 0) = [] := by
    intro a n
    induction n generalizing a with
    | zero => rfl
    | succ n ih => rw [List.replicate_succ, cellsFrom, if_pos (by rfl), ih]
  rw [load, h1, List.nil_append, List.filter_eq_nil_iff]
  intro c hc
  simp only [below, List.all_eq_true, decide_eq_true_eq] at h
  have := h c hc
  simp; omega

/-! ## The data block -/

@[simp] theorem bytes_length (m : Memory) (n : Nat) : (m.bytes n).length = n := by simp [bytes]

@[simp] theorem bytes_getElem (m : Memory) (n k : Nat) (_h : k < (m.bytes n).length) :
    (m.bytes n)[k] = m.read k := by simp [bytes]

/-- The data block of a buffer just written whole is what was written. -/
theorem bytes_load (m : Memory) (bs : List Byte) : (m.load bs).bytes bs.length = bs := by
  refine List.ext_getElem (by simp) fun k h1 h2 => ?_
  rw [bytes_getElem, read_load_lt m bs k h2]

end Memory

end Sys2Proof.Machine
end

