-- ==== Sys2Proof/Laws/Construct.lean ====
section
/-! SUPPORT. What construction answers (R241), and the drawn framebuffer (R24). -/

namespace Sys2Proof.Machine

/-- A byte of the framebuffer after construction is its draw. -/
theorem read_drawnFb (n i : Nat) (h : i < n) : (drawnFb n).read i = Config.fbDraw i := by
  unfold drawnFb
  rw [Memory.read_load_lt _ _ _ (by simpa using h)]; simp

/-- The framebuffer after construction is in canonical form, whatever the draws. -/
theorem wf_drawnFb (n : Nat) : (drawnFb n).wf = true := Memory.wf_load _ rfl

theorem below_drawnFb (n : Nat) : (drawnFb n).below n = true := Memory.below_load _ rfl (by simp)

/-- `CFG_ERR` is nonzero (R5, D9), whatever it is. -/
theorem cfgErr_ne_zero : Config.cfgErr ≠ 0 := by
  intro h
  have := congrArg BitVec.toNat h
  have hi := Config.cfgErrIndex.isLt
  simp [Config.cfgErr] at this
  omega

theorem construct_legal (h : Byte) (com : Option ComPins) (addr : Option Byte) (h1 : h.toNat ≠ 0)
    (h2 : h.toNat % 8 = 0) :
    construct h com addr =
      .next (State.constructed h (com.getD .altNoremap) (addr.getD Config.busAddrDefault)) := by
  unfold construct; rw [if_neg (by omega)]

/-- A construction that is not refused is that of a legal height. -/
theorem construct_next {h : Byte} {com : Option ComPins} {addr : Option Byte} {t : State}
    (h0 : construct h com addr = .next t) :
    h.toNat ≠ 0 ∧ h.toNat % 8 = 0 ∧
      t = State.constructed h (com.getD .altNoremap) (addr.getD Config.busAddrDefault) := by
  unfold construct at h0
  split at h0
  · cases h0
  · cases h0; exact ⟨by omega, by omega, rfl⟩

end Sys2Proof.Machine
end

