-- ==== Sys2Proof/Laws/Decode.lean ====
section
/-! SUPPORT. The fields of a packed word and of an encoded operand (R60 to R63). -/

namespace Sys2Proof

theorem append_byte_toNat {n : Nat} (x : BitVec n) (y : Byte) : (x ++ y).toNat = x.toNat * 256 + y.toNat := by
  rw [BitVec.toNat_append, ← Nat.shiftLeft_add_eq_or_of_lt y.isLt, Nat.shiftLeft_eq]

/-- The packed word as a number: the fields in order, `OPC` highest (R60). -/
theorem packWord_toNat (opc a b c d e : Byte) :
    (packWord opc a b c d e).toNat =
      opc.toNat * 2 ^ 40 + a.toNat * 2 ^ 32 + b.toNat * 2 ^ 24 + c.toNat * 2 ^ 16 + d.toNat * 2 ^ 8 + e.toNat := by
  show (opc ++ a ++ b ++ c ++ d ++ e).toNat = _
  rw [append_byte_toNat, append_byte_toNat, append_byte_toNat, append_byte_toNat, append_byte_toNat]
  omega

theorem extractByte_toNat (w : OpWord) (k : Nat) : (w.extractLsb' k 8).toNat = w.toNat / 2 ^ k % 256 := by
  rw [BitVec.extractLsb'_toNat, Nat.shiftRight_eq_div_pow]

section
variable (opc a b c d e : Byte)

@[simp] theorem fieldOPC_packWord : fieldOPC (packWord opc a b c d e) = opc := by
  apply BitVec.eq_of_toNat_eq; rw [fieldOPC, extractByte_toNat, packWord_toNat]; omega
@[simp] theorem fieldA_packWord : fieldA (packWord opc a b c d e) = a := by
  apply BitVec.eq_of_toNat_eq; rw [fieldA, extractByte_toNat, packWord_toNat]; omega
@[simp] theorem fieldB_packWord : fieldB (packWord opc a b c d e) = b := by
  apply BitVec.eq_of_toNat_eq; rw [fieldB, extractByte_toNat, packWord_toNat]; omega
@[simp] theorem fieldC_packWord : fieldC (packWord opc a b c d e) = c := by
  apply BitVec.eq_of_toNat_eq; rw [fieldC, extractByte_toNat, packWord_toNat]; omega
@[simp] theorem fieldD_packWord : fieldD (packWord opc a b c d e) = d := by
  apply BitVec.eq_of_toNat_eq; rw [fieldD, extractByte_toNat, packWord_toNat]; omega
@[simp] theorem fieldE_packWord : fieldE (packWord opc a b c d e) = e := by
  apply BitVec.eq_of_toNat_eq; rw [fieldE, extractByte_toNat, packWord_toNat]; omega

/-- Masking a packed word masks its fields (R64). -/
theorem packWord_and (m0 m1 m2 m3 m4 m5 : Byte) :
    packWord opc a b c d e &&& packWord m0 m1 m2 m3 m4 m5 =
      packWord (opc &&& m0) (a &&& m1) (b &&& m2) (c &&& m3) (d &&& m4) (e &&& m5) := by
  have h : ∀ {n : Nat} (x x' : BitVec n) (y y' : Byte), (x ++ y) &&& (x' ++ y') = (x &&& x') ++ (y &&& y') :=
    fun _ _ _ _ => BitVec.and_append
  simp only [packWord]
  exact (h _ _ _ _).trans (by rw [h, h, h, h])

/-- The boolean of a packed word is bit 0 of its last field (R62). -/
@[simp] theorem fieldV_packWord : fieldV (packWord opc a b c d e) = e[0] := by
  show _ = e.getLsbD 0
  have h : (fieldE (packWord opc a b c d e)).getLsbD 0 = e.getLsbD 0 := by rw [fieldE_packWord]
  rw [← h, fieldE, BitVec.getLsbD_extractLsb']; rfl

@[simp] theorem fieldGlen_packWord : fieldGlen (packWord opc a b c d e) = c ++ d := by
  rw [fieldGlen, fieldC_packWord, fieldD_packWord]

end

/-- Every word is the packing of its six fields (R60). -/
theorem packWord_fields (w : OpWord) :
    packWord (fieldOPC w) (fieldA w) (fieldB w) (fieldC w) (fieldD w) (fieldE w) = w := by
  apply BitVec.eq_of_toNat_eq
  rw [packWord_toNat]
  simp only [fieldOPC, fieldA, fieldB, fieldC, fieldD, fieldE, extractByte_toNat]
  omega

@[simp] theorem boolByte_bit (v : Bool) : (boolByte v)[0] = v := by cases v <;> rfl

@[simp] theorem colourByte_bit (c : Colour) : (colourByte c)[0] = decide (c = .on) := by cases c <;> rfl

/-- The two bytes of a font table length make it up again (R62). -/
@[simp] theorem glenHigh_glenLow (glen : HalfWord) : glenHigh glen ++ glenLow glen = glen := by
  apply BitVec.eq_of_toNat_eq
  rw [append_byte_toNat, glenHigh, glenLow, BitVec.extractLsb'_toNat, BitVec.extractLsb'_toNat,
    Nat.shiftRight_eq_div_pow, Nat.shiftRight_eq_div_pow]
  omega

/-- The colour field of an encoded word gives the colour back. -/
@[simp] theorem fieldK_colourByte (opc a b c d : Byte) (col : Colour) :
    fieldK (packWord opc a b c d (colourByte col)) = col := by
  rw [fieldK, fieldV_packWord, colourByte_bit]; cases col <;> rfl

theorem fieldOPC_toNat (w : OpWord) : (fieldOPC w).toNat = w.toNat / 2 ^ 40 := by
  rw [fieldOPC, extractByte_toNat]; omega

/-- A sum of shifted fields is their packed word. -/
theorem ofNat_fields (opc a b c d e : Byte) :
    BitVec.ofNat 48 (opc.toNat * 2 ^ 40 + a.toNat * 2 ^ 32 + b.toNat * 2 ^ 24 + c.toNat * 2 ^ 16
      + d.toNat * 2 ^ 8 + e.toNat) = packWord opc a b c d e := by
  apply BitVec.eq_of_toNat_eq
  rw [packWord_toNat, BitVec.toNat_ofNat]; omega

/-- `C * 256 + D` is the length of format F (R62). -/
theorem ofNat_glen (c d : Byte) : BitVec.ofNat 16 (c.toNat * 256 + d.toNat) = c ++ d := by
  apply BitVec.eq_of_toNat_eq
  rw [append_byte_toNat, BitVec.toNat_ofNat]; omega

@[simp] theorem glenHigh_append (c d : Byte) : glenHigh (c ++ d) = c := by
  apply BitVec.eq_of_toNat_eq
  rw [glenHigh, BitVec.extractLsb'_toNat, append_byte_toNat, Nat.shiftRight_eq_div_pow]; omega

@[simp] theorem glenLow_append (c d : Byte) : glenLow (c ++ d) = d := by
  apply BitVec.eq_of_toNat_eq
  rw [glenLow, BitVec.extractLsb'_toNat, append_byte_toNat, Nat.shiftRight_eq_div_pow]; omega

/-- Masking a boolean field to its bit (R64). -/
theorem and_one_boolByte : ∀ b : Byte, b &&& 1 = boolByte (b.getLsbD 0) := by decide

/-- Masking a colour field to its bit (R64). -/
theorem and_one_colourByte : ∀ b : Byte, b &&& 1 = colourByte (if b.getLsbD 0 then .on else .off) := by decide

/-- Every opcode byte is 0, one of the 24, or above them (R63, R65). -/
theorem opcode_cases : ∀ o : Byte, o.toNat = 0 ∨ 0x19 ≤ o.toNat ∨
    (o = 1 ∨ o = 2 ∨ o = 3 ∨ o = 4 ∨ o = 5 ∨ o = 6 ∨ o = 7 ∨ o = 8 ∨ o = 9 ∨ o = 10 ∨ o = 11 ∨ o = 12 ∨
      o = 13 ∨ o = 14 ∨ o = 15 ∨ o = 16 ∨ o = 17 ∨ o = 18 ∨ o = 19 ∨ o = 20 ∨ o = 21 ∨ o = 22 ∨ o = 23 ∨
      o = 24) := by decide

/-- The bits a format uses, field by field (R61). -/
theorem formatMask_fields :
    formatMask .n = packWord 255 0 0 0 0 0 ∧ formatMask .k = packWord 255 0 0 0 0 1 ∧
    formatMask .xy = packWord 255 255 255 0 0 0 ∧ formatMask .xyk = packWord 255 255 255 0 0 1 ∧
    formatMask .xylk = packWord 255 255 255 255 0 1 ∧ formatMask .rk = packWord 255 255 255 255 255 1 ∧
    formatMask .ck = packWord 255 255 0 0 0 1 ∧ formatMask .v = packWord 255 255 0 0 0 0 ∧
    formatMask .f = packWord 255 255 255 255 255 255 := ⟨rfl, rfl, rfl, rfl, rfl, rfl, rfl, rfl, rfl⟩

end Sys2Proof
end

