-- ==== Sys2Proof/Laws/State.lean ====
section
/-! SUPPORT. One lemma per field per register update, so that no later proof unfolds a record update. -/

namespace Sys2Proof.Machine

variable (s : State)

@[simp] theorem State.setFb_cfgH (m : Memory) : (s.setFb m).cfgH = s.cfgH := rfl
@[simp] theorem State.setFb_cfgCom (m : Memory) : (s.setFb m).cfgCom = s.cfgCom := rfl
@[simp] theorem State.setFb_cfgAddr (m : Memory) : (s.setFb m).cfgAddr = s.cfgAddr := rfl
@[simp] theorem State.setFb_fb (m : Memory) : (s.setFb m).fb = m := rfl
@[simp] theorem State.setFb_cx (m : Memory) : (s.setFb m).cx = s.cx := rfl
@[simp] theorem State.setFb_cy (m : Memory) : (s.setFb m).cy = s.cy := rfl
@[simp] theorem State.setFb_font (m : Memory) : (s.setFb m).font = s.font := rfl
@[simp] theorem State.setFb_err (m : Memory) : (s.setFb m).err = s.err := rfl
@[simp] theorem State.setFb_initOk (m : Memory) : (s.setFb m).initOk = s.initOk := rfl
@[simp] theorem State.setFb_port (m : Memory) : (s.setFb m).port = s.port := rfl
@[simp] theorem State.setFb_stream (m : Memory) : (s.setFb m).stream = s.stream := rfl
@[simp] theorem State.setFb_fontRom (m : Memory) : (s.setFb m).fontRom = s.fontRom := rfl
@[simp] theorem State.setFb_answers (m : Memory) : (s.setFb m).answers = s.answers := rfl
@[simp] theorem State.setFb_log (m : Memory) : (s.setFb m).log = s.log := rfl
@[simp] theorem State.setFb_results (m : Memory) : (s.setFb m).results = s.results := rfl

@[simp] theorem State.setCursor_cfgH (x y : Byte) : (s.setCursor x y).cfgH = s.cfgH := rfl
@[simp] theorem State.setCursor_cfgCom (x y : Byte) : (s.setCursor x y).cfgCom = s.cfgCom := rfl
@[simp] theorem State.setCursor_cfgAddr (x y : Byte) : (s.setCursor x y).cfgAddr = s.cfgAddr := rfl
@[simp] theorem State.setCursor_fb (x y : Byte) : (s.setCursor x y).fb = s.fb := rfl
@[simp] theorem State.setCursor_cx (x y : Byte) : (s.setCursor x y).cx = x := rfl
@[simp] theorem State.setCursor_cy (x y : Byte) : (s.setCursor x y).cy = y := rfl
@[simp] theorem State.setCursor_font (x y : Byte) : (s.setCursor x y).font = s.font := rfl
@[simp] theorem State.setCursor_err (x y : Byte) : (s.setCursor x y).err = s.err := rfl
@[simp] theorem State.setCursor_initOk (x y : Byte) : (s.setCursor x y).initOk = s.initOk := rfl
@[simp] theorem State.setCursor_port (x y : Byte) : (s.setCursor x y).port = s.port := rfl
@[simp] theorem State.setCursor_stream (x y : Byte) : (s.setCursor x y).stream = s.stream := rfl
@[simp] theorem State.setCursor_fontRom (x y : Byte) : (s.setCursor x y).fontRom = s.fontRom := rfl
@[simp] theorem State.setCursor_answers (x y : Byte) : (s.setCursor x y).answers = s.answers := rfl
@[simp] theorem State.setCursor_log (x y : Byte) : (s.setCursor x y).log = s.log := rfl
@[simp] theorem State.setCursor_results (x y : Byte) : (s.setCursor x y).results = s.results := rfl

@[simp] theorem State.setCx_cfgH (x : Byte) : (s.setCx x).cfgH = s.cfgH := rfl
@[simp] theorem State.setCx_cfgCom (x : Byte) : (s.setCx x).cfgCom = s.cfgCom := rfl
@[simp] theorem State.setCx_cfgAddr (x : Byte) : (s.setCx x).cfgAddr = s.cfgAddr := rfl
@[simp] theorem State.setCx_fb (x : Byte) : (s.setCx x).fb = s.fb := rfl
@[simp] theorem State.setCx_cx (x : Byte) : (s.setCx x).cx = x := rfl
@[simp] theorem State.setCx_cy (x : Byte) : (s.setCx x).cy = s.cy := rfl
@[simp] theorem State.setCx_font (x : Byte) : (s.setCx x).font = s.font := rfl
@[simp] theorem State.setCx_err (x : Byte) : (s.setCx x).err = s.err := rfl
@[simp] theorem State.setCx_initOk (x : Byte) : (s.setCx x).initOk = s.initOk := rfl
@[simp] theorem State.setCx_port (x : Byte) : (s.setCx x).port = s.port := rfl
@[simp] theorem State.setCx_stream (x : Byte) : (s.setCx x).stream = s.stream := rfl
@[simp] theorem State.setCx_fontRom (x : Byte) : (s.setCx x).fontRom = s.fontRom := rfl
@[simp] theorem State.setCx_answers (x : Byte) : (s.setCx x).answers = s.answers := rfl
@[simp] theorem State.setCx_log (x : Byte) : (s.setCx x).log = s.log := rfl
@[simp] theorem State.setCx_results (x : Byte) : (s.setCx x).results = s.results := rfl

@[simp] theorem State.setFont_cfgH (f : FontDesc) : (s.setFont f).cfgH = s.cfgH := rfl
@[simp] theorem State.setFont_cfgCom (f : FontDesc) : (s.setFont f).cfgCom = s.cfgCom := rfl
@[simp] theorem State.setFont_cfgAddr (f : FontDesc) : (s.setFont f).cfgAddr = s.cfgAddr := rfl
@[simp] theorem State.setFont_fb (f : FontDesc) : (s.setFont f).fb = s.fb := rfl
@[simp] theorem State.setFont_cx (f : FontDesc) : (s.setFont f).cx = s.cx := rfl
@[simp] theorem State.setFont_cy (f : FontDesc) : (s.setFont f).cy = s.cy := rfl
@[simp] theorem State.setFont_font (f : FontDesc) : (s.setFont f).font = f := rfl
@[simp] theorem State.setFont_err (f : FontDesc) : (s.setFont f).err = s.err := rfl
@[simp] theorem State.setFont_initOk (f : FontDesc) : (s.setFont f).initOk = s.initOk := rfl
@[simp] theorem State.setFont_port (f : FontDesc) : (s.setFont f).port = s.port := rfl
@[simp] theorem State.setFont_stream (f : FontDesc) : (s.setFont f).stream = s.stream := rfl
@[simp] theorem State.setFont_fontRom (f : FontDesc) : (s.setFont f).fontRom = s.fontRom := rfl
@[simp] theorem State.setFont_answers (f : FontDesc) : (s.setFont f).answers = s.answers := rfl
@[simp] theorem State.setFont_log (f : FontDesc) : (s.setFont f).log = s.log := rfl
@[simp] theorem State.setFont_results (f : FontDesc) : (s.setFont f).results = s.results := rfl

@[simp] theorem State.setErr_cfgH (e : Byte) : (s.setErr e).cfgH = s.cfgH := rfl
@[simp] theorem State.setErr_cfgCom (e : Byte) : (s.setErr e).cfgCom = s.cfgCom := rfl
@[simp] theorem State.setErr_cfgAddr (e : Byte) : (s.setErr e).cfgAddr = s.cfgAddr := rfl
@[simp] theorem State.setErr_fb (e : Byte) : (s.setErr e).fb = s.fb := rfl
@[simp] theorem State.setErr_cx (e : Byte) : (s.setErr e).cx = s.cx := rfl
@[simp] theorem State.setErr_cy (e : Byte) : (s.setErr e).cy = s.cy := rfl
@[simp] theorem State.setErr_font (e : Byte) : (s.setErr e).font = s.font := rfl
@[simp] theorem State.setErr_err (e : Byte) : (s.setErr e).err = e := rfl
@[simp] theorem State.setErr_initOk (e : Byte) : (s.setErr e).initOk = s.initOk := rfl
@[simp] theorem State.setErr_port (e : Byte) : (s.setErr e).port = s.port := rfl
@[simp] theorem State.setErr_stream (e : Byte) : (s.setErr e).stream = s.stream := rfl
@[simp] theorem State.setErr_fontRom (e : Byte) : (s.setErr e).fontRom = s.fontRom := rfl
@[simp] theorem State.setErr_answers (e : Byte) : (s.setErr e).answers = s.answers := rfl
@[simp] theorem State.setErr_log (e : Byte) : (s.setErr e).log = s.log := rfl
@[simp] theorem State.setErr_results (e : Byte) : (s.setErr e).results = s.results := rfl

@[simp] theorem State.setInitOk_cfgH (b : Bool) : (s.setInitOk b).cfgH = s.cfgH := rfl
@[simp] theorem State.setInitOk_cfgCom (b : Bool) : (s.setInitOk b).cfgCom = s.cfgCom := rfl
@[simp] theorem State.setInitOk_cfgAddr (b : Bool) : (s.setInitOk b).cfgAddr = s.cfgAddr := rfl
@[simp] theorem State.setInitOk_fb (b : Bool) : (s.setInitOk b).fb = s.fb := rfl
@[simp] theorem State.setInitOk_cx (b : Bool) : (s.setInitOk b).cx = s.cx := rfl
@[simp] theorem State.setInitOk_cy (b : Bool) : (s.setInitOk b).cy = s.cy := rfl
@[simp] theorem State.setInitOk_font (b : Bool) : (s.setInitOk b).font = s.font := rfl
@[simp] theorem State.setInitOk_err (b : Bool) : (s.setInitOk b).err = s.err := rfl
@[simp] theorem State.setInitOk_initOk (b : Bool) : (s.setInitOk b).initOk = b := rfl
@[simp] theorem State.setInitOk_port (b : Bool) : (s.setInitOk b).port = s.port := rfl
@[simp] theorem State.setInitOk_stream (b : Bool) : (s.setInitOk b).stream = s.stream := rfl
@[simp] theorem State.setInitOk_fontRom (b : Bool) : (s.setInitOk b).fontRom = s.fontRom := rfl
@[simp] theorem State.setInitOk_answers (b : Bool) : (s.setInitOk b).answers = s.answers := rfl
@[simp] theorem State.setInitOk_log (b : Bool) : (s.setInitOk b).log = s.log := rfl
@[simp] theorem State.setInitOk_results (b : Bool) : (s.setInitOk b).results = s.results := rfl

@[simp] theorem State.setStream_cfgH (bs : List Byte) : (s.setStream bs).cfgH = s.cfgH := rfl
@[simp] theorem State.setStream_cfgCom (bs : List Byte) : (s.setStream bs).cfgCom = s.cfgCom := rfl
@[simp] theorem State.setStream_cfgAddr (bs : List Byte) : (s.setStream bs).cfgAddr = s.cfgAddr := rfl
@[simp] theorem State.setStream_fb (bs : List Byte) : (s.setStream bs).fb = s.fb := rfl
@[simp] theorem State.setStream_cx (bs : List Byte) : (s.setStream bs).cx = s.cx := rfl
@[simp] theorem State.setStream_cy (bs : List Byte) : (s.setStream bs).cy = s.cy := rfl
@[simp] theorem State.setStream_font (bs : List Byte) : (s.setStream bs).font = s.font := rfl
@[simp] theorem State.setStream_err (bs : List Byte) : (s.setStream bs).err = s.err := rfl
@[simp] theorem State.setStream_initOk (bs : List Byte) : (s.setStream bs).initOk = s.initOk := rfl
@[simp] theorem State.setStream_port (bs : List Byte) : (s.setStream bs).port = s.port := rfl
@[simp] theorem State.setStream_stream (bs : List Byte) : (s.setStream bs).stream = bs := rfl
@[simp] theorem State.setStream_fontRom (bs : List Byte) : (s.setStream bs).fontRom = s.fontRom := rfl
@[simp] theorem State.setStream_answers (bs : List Byte) : (s.setStream bs).answers = s.answers := rfl
@[simp] theorem State.setStream_log (bs : List Byte) : (s.setStream bs).log = s.log := rfl
@[simp] theorem State.setStream_results (bs : List Byte) : (s.setStream bs).results = s.results := rfl

@[simp] theorem State.setPort_cfgH (es : List HostEvent) : (s.setPort es).cfgH = s.cfgH := rfl
@[simp] theorem State.setPort_cfgCom (es : List HostEvent) : (s.setPort es).cfgCom = s.cfgCom := rfl
@[simp] theorem State.setPort_cfgAddr (es : List HostEvent) : (s.setPort es).cfgAddr = s.cfgAddr := rfl
@[simp] theorem State.setPort_fb (es : List HostEvent) : (s.setPort es).fb = s.fb := rfl
@[simp] theorem State.setPort_cx (es : List HostEvent) : (s.setPort es).cx = s.cx := rfl
@[simp] theorem State.setPort_cy (es : List HostEvent) : (s.setPort es).cy = s.cy := rfl
@[simp] theorem State.setPort_font (es : List HostEvent) : (s.setPort es).font = s.font := rfl
@[simp] theorem State.setPort_err (es : List HostEvent) : (s.setPort es).err = s.err := rfl
@[simp] theorem State.setPort_initOk (es : List HostEvent) : (s.setPort es).initOk = s.initOk := rfl
@[simp] theorem State.setPort_port (es : List HostEvent) : (s.setPort es).port = es := rfl
@[simp] theorem State.setPort_stream (es : List HostEvent) : (s.setPort es).stream = s.stream := rfl
@[simp] theorem State.setPort_fontRom (es : List HostEvent) : (s.setPort es).fontRom = s.fontRom := rfl
@[simp] theorem State.setPort_answers (es : List HostEvent) : (s.setPort es).answers = s.answers := rfl
@[simp] theorem State.setPort_log (es : List HostEvent) : (s.setPort es).log = s.log := rfl
@[simp] theorem State.setPort_results (es : List HostEvent) : (s.setPort es).results = s.results := rfl

@[simp] theorem State.setFontRom_cfgH (ts : List FontTable) : (s.setFontRom ts).cfgH = s.cfgH := rfl
@[simp] theorem State.setFontRom_cfgCom (ts : List FontTable) : (s.setFontRom ts).cfgCom = s.cfgCom := rfl
@[simp] theorem State.setFontRom_cfgAddr (ts : List FontTable) : (s.setFontRom ts).cfgAddr = s.cfgAddr := rfl
@[simp] theorem State.setFontRom_fb (ts : List FontTable) : (s.setFontRom ts).fb = s.fb := rfl
@[simp] theorem State.setFontRom_cx (ts : List FontTable) : (s.setFontRom ts).cx = s.cx := rfl
@[simp] theorem State.setFontRom_cy (ts : List FontTable) : (s.setFontRom ts).cy = s.cy := rfl
@[simp] theorem State.setFontRom_font (ts : List FontTable) : (s.setFontRom ts).font = s.font := rfl
@[simp] theorem State.setFontRom_err (ts : List FontTable) : (s.setFontRom ts).err = s.err := rfl
@[simp] theorem State.setFontRom_initOk (ts : List FontTable) : (s.setFontRom ts).initOk = s.initOk := rfl
@[simp] theorem State.setFontRom_port (ts : List FontTable) : (s.setFontRom ts).port = s.port := rfl
@[simp] theorem State.setFontRom_stream (ts : List FontTable) : (s.setFontRom ts).stream = s.stream := rfl
@[simp] theorem State.setFontRom_fontRom (ts : List FontTable) : (s.setFontRom ts).fontRom = ts := rfl
@[simp] theorem State.setFontRom_answers (ts : List FontTable) : (s.setFontRom ts).answers = s.answers := rfl
@[simp] theorem State.setFontRom_log (ts : List FontTable) : (s.setFontRom ts).log = s.log := rfl
@[simp] theorem State.setFontRom_results (ts : List FontTable) : (s.setFontRom ts).results = s.results := rfl

@[simp] theorem State.setAnswers_cfgH (as : List Byte) : (s.setAnswers as).cfgH = s.cfgH := rfl
@[simp] theorem State.setAnswers_cfgCom (as : List Byte) : (s.setAnswers as).cfgCom = s.cfgCom := rfl
@[simp] theorem State.setAnswers_cfgAddr (as : List Byte) : (s.setAnswers as).cfgAddr = s.cfgAddr := rfl
@[simp] theorem State.setAnswers_fb (as : List Byte) : (s.setAnswers as).fb = s.fb := rfl
@[simp] theorem State.setAnswers_cx (as : List Byte) : (s.setAnswers as).cx = s.cx := rfl
@[simp] theorem State.setAnswers_cy (as : List Byte) : (s.setAnswers as).cy = s.cy := rfl
@[simp] theorem State.setAnswers_font (as : List Byte) : (s.setAnswers as).font = s.font := rfl
@[simp] theorem State.setAnswers_err (as : List Byte) : (s.setAnswers as).err = s.err := rfl
@[simp] theorem State.setAnswers_initOk (as : List Byte) : (s.setAnswers as).initOk = s.initOk := rfl
@[simp] theorem State.setAnswers_port (as : List Byte) : (s.setAnswers as).port = s.port := rfl
@[simp] theorem State.setAnswers_stream (as : List Byte) : (s.setAnswers as).stream = s.stream := rfl
@[simp] theorem State.setAnswers_fontRom (as : List Byte) : (s.setAnswers as).fontRom = s.fontRom := rfl
@[simp] theorem State.setAnswers_answers (as : List Byte) : (s.setAnswers as).answers = as := rfl
@[simp] theorem State.setAnswers_log (as : List Byte) : (s.setAnswers as).log = s.log := rfl
@[simp] theorem State.setAnswers_results (as : List Byte) : (s.setAnswers as).results = s.results := rfl

@[simp] theorem State.setLog_cfgH (ts : List Transaction) : (s.setLog ts).cfgH = s.cfgH := rfl
@[simp] theorem State.setLog_cfgCom (ts : List Transaction) : (s.setLog ts).cfgCom = s.cfgCom := rfl
@[simp] theorem State.setLog_cfgAddr (ts : List Transaction) : (s.setLog ts).cfgAddr = s.cfgAddr := rfl
@[simp] theorem State.setLog_fb (ts : List Transaction) : (s.setLog ts).fb = s.fb := rfl
@[simp] theorem State.setLog_cx (ts : List Transaction) : (s.setLog ts).cx = s.cx := rfl
@[simp] theorem State.setLog_cy (ts : List Transaction) : (s.setLog ts).cy = s.cy := rfl
@[simp] theorem State.setLog_font (ts : List Transaction) : (s.setLog ts).font = s.font := rfl
@[simp] theorem State.setLog_err (ts : List Transaction) : (s.setLog ts).err = s.err := rfl
@[simp] theorem State.setLog_initOk (ts : List Transaction) : (s.setLog ts).initOk = s.initOk := rfl
@[simp] theorem State.setLog_port (ts : List Transaction) : (s.setLog ts).port = s.port := rfl
@[simp] theorem State.setLog_stream (ts : List Transaction) : (s.setLog ts).stream = s.stream := rfl
@[simp] theorem State.setLog_fontRom (ts : List Transaction) : (s.setLog ts).fontRom = s.fontRom := rfl
@[simp] theorem State.setLog_answers (ts : List Transaction) : (s.setLog ts).answers = s.answers := rfl
@[simp] theorem State.setLog_log (ts : List Transaction) : (s.setLog ts).log = ts := rfl
@[simp] theorem State.setLog_results (ts : List Transaction) : (s.setLog ts).results = s.results := rfl

@[simp] theorem State.setResults_cfgH (rs : List Byte) : (s.setResults rs).cfgH = s.cfgH := rfl
@[simp] theorem State.setResults_cfgCom (rs : List Byte) : (s.setResults rs).cfgCom = s.cfgCom := rfl
@[simp] theorem State.setResults_cfgAddr (rs : List Byte) : (s.setResults rs).cfgAddr = s.cfgAddr := rfl
@[simp] theorem State.setResults_fb (rs : List Byte) : (s.setResults rs).fb = s.fb := rfl
@[simp] theorem State.setResults_cx (rs : List Byte) : (s.setResults rs).cx = s.cx := rfl
@[simp] theorem State.setResults_cy (rs : List Byte) : (s.setResults rs).cy = s.cy := rfl
@[simp] theorem State.setResults_font (rs : List Byte) : (s.setResults rs).font = s.font := rfl
@[simp] theorem State.setResults_err (rs : List Byte) : (s.setResults rs).err = s.err := rfl
@[simp] theorem State.setResults_initOk (rs : List Byte) : (s.setResults rs).initOk = s.initOk := rfl
@[simp] theorem State.setResults_port (rs : List Byte) : (s.setResults rs).port = s.port := rfl
@[simp] theorem State.setResults_stream (rs : List Byte) : (s.setResults rs).stream = s.stream := rfl
@[simp] theorem State.setResults_fontRom (rs : List Byte) : (s.setResults rs).fontRom = s.fontRom := rfl
@[simp] theorem State.setResults_answers (rs : List Byte) : (s.setResults rs).answers = s.answers := rfl
@[simp] theorem State.setResults_log (rs : List Byte) : (s.setResults rs).log = s.log := rfl
@[simp] theorem State.setResults_results (rs : List Byte) : (s.setResults rs).results = rs := rfl

@[simp] theorem State.setFb_fb_self : s.setFb s.fb = s := rfl
@[simp] theorem State.setFb_setFb (m m' : Memory) : (s.setFb m).setFb m' = s.setFb m' := rfl

end Sys2Proof.Machine
end

