-- ==== Sys2Proof/Laws/Pixels.lean ====
section
/-! SUPPORT. What PB_SET and a list of PB_SET calls do to the framebuffer, bit by bit (R41, R44, R90, R110, R117). -/

namespace Sys2Proof.Machine

theorem fbBit_lt (y : Byte) : fbBit y < 8 := Nat.mod_lt _ (by decide)

theorem inb_iff (h x y : Byte) : inb h x y = true ↔ x.toNat < 128 ∧ y.toNat < h.toNat := by
  unfold inb width
  rw [Bool.and_eq_true, decide_eq_true_eq, decide_eq_true_eq]

/-- An in-bounds pixel's byte exists (R44). -/
theorem fbIndex_lt {h x y : Byte} (hm : h.toNat % 8 = 0) (hb : inb h x y = true) :
    fbIndex x y < 16 * h.toNat := by
  rw [inb_iff] at hb
  simp only [fbIndex, width]
  omega

/-- Setting or clearing bit `k` of a byte, bit by bit (R90). -/
theorem setPixelBit_getLsbD (b : Byte) {j k : Nat} (hj : j < 8) (hk : k < 8) (c : Colour) :
    (setPixelBit b k c).getLsbD j = if j = k then isOn c else b.getLsbD j := by
  have h1 : ((1 : Byte) <<< k).getLsbD j = decide (j = k) := by
    rw [BitVec.getLsbD_shiftLeft]
    by_cases h : j = k
    · subst h; simp [hj]
    · by_cases hlt : j < k
      · simp [hj, h, hlt]
      · simp [hj, h]; omega
  cases c
  · simp only [setPixelBit, isOn, BitVec.getLsbD_and, BitVec.getLsbD_not, h1, hj]
    by_cases h : j = k <;> simp [h]
  · simp only [setPixelBit, isOn, BitVec.getLsbD_or, h1]
    by_cases h : j = k <;> simp [h]

theorem bitAt_write {m : Memory} (hw : m.wf = true) (a : Nat) (v : Byte) (a' k : Nat) :
    bitAt (m.write a v) a' k = if a' = a then v.getLsbD k else bitAt m a' k := by
  simp only [bitAt, Memory.read_write hw]
  split <;> rfl

/-- Framebuffers with equal bits are equal data. -/
theorem ext_bits {m m' : Memory} (hw : m.wf = true) (hw' : m'.wf = true)
    (h : ∀ a k, k < 8 → bitAt m a k = bitAt m' a k) : m = m' :=
  Memory.ext_read hw hw' fun a => BitVec.eq_of_getLsbD_eq fun k hk => h a k hk

/-! ## One PB_SET -/

theorem wf_pbSet {m : Memory} (h : Byte) (p : Pixel) (hw : m.wf = true) : (pbSet h m p).wf = true := by
  unfold pbSet; split
  · exact Memory.wf_write _ _ hw
  · exact hw

theorem below_pbSet {m : Memory} {h : Byte} (p : Pixel) (hm : h.toNat % 8 = 0)
    (hb : m.below (16 * h.toNat) = true) : (pbSet h m p).below (16 * h.toNat) = true := by
  unfold pbSet; split
  · exact Memory.below_write _ hb (fbIndex_lt hm ‹_›)
  · exact hb

/-- PB_SET writes the one bit it names, if in bounds, and no other (R90). -/
theorem bitAt_pbSet {m : Memory} (h : Byte) (p : Pixel) (hw : m.wf = true) (a : Nat) {k : Nat} (hk : k < 8) :
    bitAt (pbSet h m p) a k = if PlotsTo h p.x p.y a k then isOn p.c else bitAt m a k := by
  unfold pbSet
  by_cases hb : inb h p.x p.y = true
  · rw [if_pos hb, bitAt_write hw]
    by_cases ha : a = fbIndex p.x p.y
    · subst ha
      rw [if_pos rfl, setPixelBit_getLsbD _ hk (fbBit_lt _)]
      by_cases hkk : k = fbBit p.y
      · rw [if_pos hkk, if_pos ⟨hb, rfl, hkk.symm⟩]
      · rw [if_neg hkk, if_neg fun hp => hkk hp.2.2.symm]; rfl
    · rw [if_neg ha, if_neg fun hp => ha hp.2.1.symm]
  · rw [if_neg hb, if_neg fun hp => hb hp.1]

/-- A clipped PB_SET changes nothing (R96). -/
theorem pbSet_clipped {m : Memory} {h : Byte} {p : Pixel} (hb : inb h p.x p.y = false) : pbSet h m p = m := by
  unfold pbSet; rw [if_neg (by simp [hb])]

/-! ## The PB_SET calls of a primitive -/

@[simp] theorem plot_nil (h : Byte) (m : Memory) : plot h m [] = m := rfl

@[simp] theorem plot_cons (h : Byte) (m : Memory) (p : Pixel) (ps : List Pixel) :
    plot h m (p :: ps) = plot h (pbSet h m p) ps := rfl

theorem plot_append (h : Byte) (m : Memory) (ps qs : List Pixel) :
    plot h m (ps ++ qs) = plot h (plot h m ps) qs := by
  simp [plot, List.foldl_append]

theorem wf_plot {m : Memory} (h : Byte) (ps : List Pixel) (hw : m.wf = true) : (plot h m ps).wf = true := by
  induction ps generalizing m with
  | nil => exact hw
  | cons p ps ih => exact ih (wf_pbSet h p hw)

theorem below_plot {m : Memory} {h : Byte} (ps : List Pixel) (hm : h.toNat % 8 = 0)
    (hb : m.below (16 * h.toNat) = true) : (plot h m ps).below (16 * h.toNat) = true := by
  induction ps generalizing m with
  | nil => exact hb
  | cons p ps ih => exact ih (below_pbSet p hm hb)

/-- A bit that no call names is unchanged (R117). -/
theorem bitAt_plot_miss {m : Memory} (h : Byte) (ps : List Pixel) (hw : m.wf = true) (a : Nat) {k : Nat} (hk : k < 8)
    (hmiss : ∀ p ∈ ps, ¬ PlotsTo h p.x p.y a k) : bitAt (plot h m ps) a k = bitAt m a k := by
  induction ps generalizing m with
  | nil => rfl
  | cons p ps ih =>
    rw [plot_cons, ih (wf_pbSet h p hw) fun q hq => hmiss q (by simp [hq]), bitAt_pbSet h p hw a hk,
      if_neg (hmiss p (by simp))]

/-- A bit that some call names, all that name it in one colour, has that colour (R117). -/
theorem bitAt_plot_hit {m : Memory} (h : Byte) (ps : List Pixel) (hw : m.wf = true) (a : Nat) {k : Nat} (hk : k < 8)
    (c : Colour) (hc : ∀ p ∈ ps, PlotsTo h p.x p.y a k → p.c = c)
    (hhit : ∃ p ∈ ps, PlotsTo h p.x p.y a k) : bitAt (plot h m ps) a k = isOn c := by
  induction ps generalizing m with
  | nil => simp at hhit
  | cons p ps ih =>
    rw [plot_cons]
    by_cases hrest : ∃ q ∈ ps, PlotsTo h q.x q.y a k
    · exact ih (wf_pbSet h p hw) (fun q hq => hc q (by simp [hq])) hrest
    · have hp : PlotsTo h p.x p.y a k := by
        obtain ⟨q, hq, hqp⟩ := hhit
        rcases List.mem_cons.mp hq with rfl | hq
        · exact hqp
        · exact absurd ⟨q, hq, hqp⟩ hrest
      rw [bitAt_plot_miss h ps (wf_pbSet h p hw) a hk fun q hq hqp => hrest ⟨q, hq, hqp⟩,
        bitAt_pbSet h p hw a hk, if_pos hp, hc p (by simp) hp]

/-- The calls of a primitive, all in one colour, draw exactly the bits they name (R110, R117). -/
theorem plot_drawnExactly {m : Memory} (h : Byte) (ps : List Pixel) (hw : m.wf = true) (c : Colour)
    (hc : ∀ p ∈ ps, p.c = c) :
    DrawnExactly c (fun a k => ∃ p ∈ ps, PlotsTo h p.x p.y a k) m (plot h m ps) := fun a _ hk =>
  ⟨fun hhit => bitAt_plot_hit h ps hw a hk c (fun p hp _ => hc p hp) hhit,
   fun hmiss => bitAt_plot_miss h ps hw a hk fun p hp hpl => hmiss ⟨p, hp, hpl⟩⟩

@[simp] theorem State.plot_eq (s : State) (ps : List Pixel) :
    s.plot ps = s.setFb (Machine.plot s.cfgH s.fb ps) := rfl

/-- PB_FILL, byte by byte (R91). -/
theorem read_pbFill {s : State} (c : Colour) (hw : s.fb.wf = true) (a : Nat) :
    (s.pbFill c).fb.read a = if a < 16 * s.cfgH.toNat then fillByte c else s.fb.read a := by
  simp only [State.pbFill, State.setFb_fb, fbSize]
  split
  · rw [Memory.read_load_lt _ _ _ (by simpa using ‹_›)]; simp
  · rw [Memory.read_load_ge _ a hw (by simp; omega)]

theorem wf_pbFill {s : State} (c : Colour) (hw : s.fb.wf = true) : (s.pbFill c).fb.wf = true :=
  Memory.wf_load _ hw

theorem below_pbFill {s : State} (c : Colour) (hb : s.fb.below (16 * s.cfgH.toNat) = true) :
    (s.pbFill c).fb.below (16 * s.cfgH.toNat) = true :=
  Memory.below_load _ hb (by simp [fbSize])

end Sys2Proof.Machine
end

