-- ==== Sys2Proof/Laws/Transactions.lean ====
section
/-! SUPPORT. What EMIT and a script of transactions do: the log, the sticky error and the answers consumed (R160 to R162). -/

namespace Sys2Proof.Machine

@[simp] theorem recordStatus_zero (err : Byte) : recordStatus err 0 = err := by simp [recordStatus]

theorem recordStatus_ne_zero {err st : Byte} (h : st ≠ 0) : recordStatus err st = st := if_pos h

/-- A failure once recorded is never cleared by a later status (R161). -/
theorem recordStatus_nonzero {err : Byte} (st : Byte) (h : err ≠ 0) : recordStatus err st ≠ 0 := by
  unfold recordStatus; split <;> assumption

@[simp] theorem lastFailure_nil (err : Byte) : lastFailure err [] = err := rfl

/-- The last nonzero status wins: recording one more status (R161, R227). -/
theorem lastFailure_append (err : Byte) (sts : List Byte) (st : Byte) :
    lastFailure err (sts ++ [st]) = recordStatus (lastFailure err sts) st := by
  simp only [lastFailure, recordStatus, List.reverse_append, List.reverse_cons, List.reverse_nil, List.nil_append,
    List.singleton_append, List.find?_cons]
  by_cases h : st = 0
  · simp [h]
  · have h1 : (st != 0) = true := by simpa using h
    rw [h1, if_pos h]; rfl

theorem lastFailure_cons (err : Byte) (st : Byte) (sts : List Byte) :
    lastFailure err (st :: sts) = lastFailure (recordStatus err st) sts := by
  induction sts using List.reverseRecOn with
  | nil => simpa using lastFailure_append err [] st
  | append_singleton sts x ih => rw [← List.cons_append, lastFailure_append, lastFailure_append, ih]

theorem lastFailure_ne_zero {err : Byte} (sts : List Byte) (h : err ≠ 0) : lastFailure err sts ≠ 0 := by
  induction sts generalizing err with
  | nil => exact h
  | cons st sts ih => rw [lastFailure_cons]; exact ih (recordStatus_nonzero st h)

/-- If every status is 0 the error is what it was (R161). -/
theorem lastFailure_zeros (err : Byte) (sts : List Byte) (h : ∀ st ∈ sts, st = 0) : lastFailure err sts = err := by
  induction sts with
  | nil => rfl
  | cons st sts ih =>
    rw [lastFailure_cons, h st (by simp), recordStatus_zero, ih fun x hx => h x (by simp [hx])]

/-! ## One EMIT -/

section
variable (s : State) (t : Tx)

@[simp] theorem emit_cfgH : (emit s t).cfgH = s.cfgH := rfl
@[simp] theorem emit_cfgCom : (emit s t).cfgCom = s.cfgCom := rfl
@[simp] theorem emit_cfgAddr : (emit s t).cfgAddr = s.cfgAddr := rfl
@[simp] theorem emit_fb : (emit s t).fb = s.fb := rfl
@[simp] theorem emit_cx : (emit s t).cx = s.cx := rfl
@[simp] theorem emit_cy : (emit s t).cy = s.cy := rfl
@[simp] theorem emit_font : (emit s t).font = s.font := rfl
@[simp] theorem emit_err : (emit s t).err = recordStatus s.err (nextStatus s) := rfl
@[simp] theorem emit_initOk : (emit s t).initOk = s.initOk := rfl
@[simp] theorem emit_port : (emit s t).port = s.port := rfl
@[simp] theorem emit_stream : (emit s t).stream = s.stream := rfl
@[simp] theorem emit_fontRom : (emit s t).fontRom = s.fontRom := rfl
@[simp] theorem emit_answers : (emit s t).answers = s.answers.tail := rfl
@[simp] theorem emit_log :
    (emit s t).log = s.log ++ [{ tx := t, addr := s.cfgAddr, status := nextStatus s }] := rfl
@[simp] theorem emit_results : (emit s t).results = s.results := rfl

theorem nextStatus_eq_statusAt : nextStatus s = statusAt s 0 := by
  unfold nextStatus statusAt
  cases s.answers <;> simp

theorem statusAt_emit (j : Nat) : statusAt (emit s t) j = statusAt s (j + 1) := by
  unfold statusAt
  cases h : s.answers with
  | nil => simp [h]; congr 1; omega
  | cons a as => simp [h]; cases as[j]? <;> simp; congr 1; omega

end

/-! ## A script -/

theorem answered_cons (s : State) (t : Tx) (ts : List Tx) :
    answered s (t :: ts) = { tx := t, addr := s.cfgAddr, status := nextStatus s } :: answered (emit s t) ts := by
  simp only [answered, List.mapIdx_cons, nextStatus_eq_statusAt, statusAt_emit, emit_cfgAddr]

@[simp] theorem answered_nil (s : State) : answered s [] = [] := rfl

@[simp] theorem answered_length (s : State) (ts : List Tx) : (answered s ts).length = ts.length := by simp [answered]

@[simp] theorem answered_tx (s : State) (ts : List Tx) : (answered s ts).map Transaction.tx = ts := by
  induction ts generalizing s with
  | nil => rfl
  | cons t ts ih => rw [answered_cons, List.map_cons, ih]

theorem answered_addr {s : State} {ts : List Tx} {e : Transaction} (he : e ∈ answered s ts) : e.addr = s.cfgAddr := by
  obtain ⟨j, hj, rfl⟩ := List.mem_mapIdx.mp he
  rfl

/-- Everything a script of transactions does (R160, R161, R162): the log grows by the answered script,
`ERR` ends at the last failing status, as many answers are used up, and nothing else changes. -/
theorem emitAll_eq (s : State) (ts : List Tx) :
    emitAll s ts =
      { s with
        log := s.log ++ answered s ts
        err := lastFailure s.err ((answered s ts).map Transaction.status)
        answers := s.answers.drop ts.length } := by
  induction ts generalizing s with
  | nil => simp [emitAll]
  | cons t ts ih =>
    rw [show emitAll s (t :: ts) = emitAll (emit s t) ts from rfl, ih, answered_cons]
    simp [lastFailure_cons, emit]

theorem emitAll_append (s : State) (ts us : List Tx) : emitAll s (ts ++ us) = emitAll (emitAll s ts) us := by
  simp [emitAll, List.foldl_append]

theorem emit_eq_emitAll (s : State) (t : Tx) : emit s t = emitAll s [t] := rfl

/-- UPDATE_BODY as one script (R167): the window, then the framebuffer as one block. -/
theorem updateBody_eq (s : State) :
    updateBody s = emitAll s ((windowBytes s.cfgH).map .cmd ++ [.data (s.fb.bytes (16 * s.cfgH.toNat))]) := by
  rw [emitAll_append]
  have h1 : (emitWindow s).fb = s.fb := by simp [emitWindow, emitAll_eq]
  rfl

end Sys2Proof.Machine
end

