-- ==== Sys2Proof/Laws/Exec.lean ====
section
/-! SUPPORT. What a completed operation can do: its script of transactions, its frame, and the canonical form of the framebuffer; then the same of a step. -/

namespace Sys2Proof.Machine

/-! ## The gate and the guards -/

theorem fbGate_le {s : State} (r : Result) (h : s.cfgH.toNat ≤ 64) : fbGate s r = r := if_neg (by omega)

theorem fbGate_gt {s : State} (r : Result) (h : 64 < s.cfgH.toNat) : fbGate s r = .refused .configError := if_pos h

/-- An operation behind the gate completes only below a configuration error. -/
theorem fbGate_next {s t : State} {r : Result} (h : fbGate s r = .next t) : s.cfgH.toNat ≤ 64 ∧ r = .next t := by
  unfold fbGate at h
  split at h
  · cases h
  · exact ⟨by omega, h⟩

theorem ite_refused_next {p : Prop} [Decidable p] {e : Refusal} {u t : State}
    (h : (if p then (.refused e : Result) else .next u) = .next t) : ¬ p ∧ u = t := by
  split at h
  · cases h
  · exact ⟨‹_›, by cases h; rfl⟩

/-- Splitting a string stream: the characters hold no `0x00`, and the stream is they, the terminator and the rest. -/
theorem splitString_eq_some {bs chars rest : List Byte} :
    splitString bs = some (chars, rest) ↔ (0x00 : Byte) ∉ chars ∧ bs = chars ++ 0x00 :: rest := by
  induction bs generalizing chars with
  | nil => simp [splitString]
  | cons b bs ih =>
    unfold splitString
    by_cases hb : b = 0x00
    · rw [if_pos hb]
      subst hb
      constructor
      · rintro ⟨⟩; simp
      · rintro ⟨h0, h⟩
        cases chars with
        | nil => simp_all
        | cons c cs => simp only [List.cons_append, List.cons.injEq] at h; simp [← h.1] at h0
    · rw [if_neg hb]
      constructor
      · intro h
        split at h
        · rename_i cs r hs
          cases h
          obtain ⟨h0, rfl⟩ := ih.mp hs
          refine ⟨?_, rfl⟩
          rw [List.mem_cons, not_or]
          exact ⟨fun e => hb e.symm, h0⟩
        · cases h
      · rintro ⟨h0, h⟩
        cases chars with
        | nil => simp only [List.nil_append, List.cons.injEq] at h; exact absurd h.1 hb
        | cons c cs =>
          simp only [List.cons_append, List.cons.injEq] at h
          rw [List.mem_cons, not_or] at h0
          rw [ih.mpr ⟨h0.2, h.2⟩, h.1]

theorem splitString_eq_none {bs : List Byte} : splitString bs = none ↔ (0x00 : Byte) ∉ bs := by
  induction bs with
  | nil => simp [splitString]
  | cons b bs ih =>
    unfold splitString
    by_cases hb : b = 0x00
    · simp [hb]
    · rw [if_neg hb, List.mem_cons, not_or, ← ih]
      have hb' : ¬ (0x00 : Byte) = b := fun e => hb e.symm
      cases splitString bs with
      | none => exact ⟨fun _ => ⟨hb', rfl⟩, fun _ => rfl⟩
      | some p => obtain ⟨cs, r⟩ := p; simp

/-- The model's test of the font store is the contract's (R26, R226 (6)). -/
theorem glyphUnanswered_eq_false {s : State} {ch : Byte} : glyphUnanswered s ch = false ↔ GlyphAnswered s ch := by
  unfold glyphUnanswered GlyphAnswered fontRead
  cases fontTable s.font.fid s.fontRom with
  | none => simp
  | some rows =>
    simp only [Bool.and_eq_false_iff, decide_eq_false_iff_not, not_lt, ne_eq, List.getElem?_eq_none_iff, not_le]
    constructor
    · rintro (h | h) he r hr
      · simp [he] at h
      · simp only [glyphRowIndex]
        have : (ch.toNat - 32 + 1) * s.font.gh.toNat = (ch.toNat - 32) * s.font.gh.toNat + s.font.gh.toNat := by
          rw [Nat.add_mul, Nat.one_mul]
        omega
    · intro h
      by_cases he : glyphEncoded ch s.font.gh s.font.glen = true
      · right
        have e : (ch.toNat - 32 + 1) * s.font.gh.toNat = (ch.toNat - 32) * s.font.gh.toNat + s.font.gh.toNat := by
          rw [Nat.add_mul, Nat.one_mul]
        by_cases hg : s.font.gh.toNat = 0
        · simp [hg]
        · have := h he (s.font.gh.toNat - 1) (by omega)
          simp only [glyphRowIndex] at this
          omega
      · left; simpa using he

/-! ## Rendering characters -/

/-- A rendered character touches the framebuffer and `CX` alone (R133, R139). -/
theorem renderChar_frame (c : Colour) (s : State) (ch : Byte) :
    renderChar c s ch = { s with fb := (renderChar c s ch).fb, cx := (renderChar c s ch).cx } := by
  unfold renderChar; split <;> rfl

theorem renderChar_fb (c : Colour) (s : State) (ch : Byte) :
    (renderChar c s ch).fb =
      if glyphEncoded ch s.font.gh s.font.glen then plot s.cfgH s.fb (glyphPixels s ch c) else s.fb := by
  unfold renderChar; split <;> rfl

theorem renderChar_cx (c : Colour) (s : State) (ch : Byte) :
    (renderChar c s ch).cx = if glyphEncoded ch s.font.gh s.font.glen then s.cx + s.font.gw else s.cx := by
  unfold renderChar; split <;> rfl

theorem renderChars_frame (c : Colour) (chars : List Byte) (s : State) :
    ∃ m x, chars.foldl (renderChar c) s = { s with fb := m, cx := x } := by
  induction chars generalizing s with
  | nil => exact ⟨s.fb, s.cx, rfl⟩
  | cons ch chars ih =>
    obtain ⟨m, x, h⟩ := ih (renderChar c s ch)
    refine ⟨m, x, ?_⟩
    rw [List.foldl_cons, h, renderChar_frame]

theorem renderChars_fb_keeps (P : Memory → Prop) (h : Byte)
    (hP : ∀ m ps, P m → P (plot h m ps)) (c : Colour) (chars : List Byte) (s : State) (hs : s.cfgH = h) (hm : P s.fb) :
    P (chars.foldl (renderChar c) s).fb := by
  induction chars generalizing s with
  | nil => exact hm
  | cons ch chars ih =>
    rw [List.foldl_cons]
    refine ih _ ?_ ?_
    · rw [renderChar_frame]; exact hs
    · rw [renderChar_fb]
      split
      · subst hs; exact hP _ _ hm
      · exact hm

/-! ## What a completed operation can do -/

/-- A completed operation that is not a protocol, cursor, font or facade operation: it changes the
framebuffer, `CX` and the stream at most, and every framebuffer property kept by PB_SET calls and by
whole-buffer writes is kept. -/
structure DrawsOnly (s t : State) : Prop where
  frame : t = { s with fb := t.fb, cx := t.cx, stream := t.stream }
  keeps : ∀ P : Memory → Prop, (∀ m ps, P m → P (plot s.cfgH m ps)) →
    (∀ m bs, bs.length ≤ 16 * s.cfgH.toNat → P m → P (m.load bs)) → P s.fb → P t.fb

theorem drawsOnly_plot (s : State) (ps : List Pixel) : DrawsOnly s (s.plot ps) :=
  ⟨rfl, fun _ h1 _ hm => h1 _ _ hm⟩

theorem drawsOnly_pbFill (s : State) (c : Colour) : DrawsOnly s (s.pbFill c) :=
  ⟨rfl, fun _ _ h2 hm => h2 _ _ (by simp [fbSize]) hm⟩

/-- The transactions of each operation (R162, R163, R167 to R173, R176). -/
def scriptOf (i : Instr) (s : State) : List Tx :=
  match i with
  | .init => (initBytes s.cfgH s.cfgCom).map .cmd ++ (windowBytes s.cfgH).map .cmd
      ++ [.data (List.replicate (16 * s.cfgH.toNat) 0)]
  | .update => (windowBytes s.cfgH).map .cmd ++ [.data (s.fb.bytes (16 * s.cfgH.toNat))]
  | .displayOff => [.cmd cbDisplayOff]
  | .displayOn => [.cmd cbDisplayOn]
  | .setBrightness value => [.cmd cbContrast, .cmd value]
  | .invert v => [.cmd (inversionByte v)]
  | .flip v => [.cmd (comByte v)]
  | .mirror v => [.cmd (segByte v)]
  | _ => []

theorem pbFill_off_fb (s : State) : (s.pbFill .off).fb.bytes (16 * s.cfgH.toNat) = List.replicate (16 * s.cfgH.toNat) 0 := by
  have := Memory.bytes_load s.fb (List.replicate (fbSize s.cfgH) (fillByte .off))
  simpa [State.pbFill, fbSize, fillByte] using this

/-- A script's transactions do not depend on what the framebuffer holds when they are emitted. -/
theorem emitAll_setFb (s : State) (m : Memory) (ts : List Tx) :
    emitAll (s.setFb m) ts = (emitAll s ts).setFb m := by
  induction ts generalizing s with
  | nil => rfl
  | cons t ts ih => exact ih (emit s t)

theorem emitAll_cfgH (s : State) (ts : List Tx) : (emitAll s ts).cfgH = s.cfgH := by rw [emitAll_eq]

theorem emitAll_fb (s : State) (ts : List Tx) : (emitAll s ts).fb = s.fb := by rw [emitAll_eq]

theorem emitAll_pbFill (s : State) (c : Colour) (ts : List Tx) :
    (emitAll s ts).pbFill c = emitAll (s.pbFill c) ts := by
  rw [State.pbFill, State.pbFill, emitAll_setFb, emitAll_cfgH, emitAll_fb]

/-- INIT as one script and its register writes (R164). -/
theorem initBody_eq (s : State) :
    initBody s = (emitAll (s.pbFill .off) (scriptOf .init s)).setInitOk
      (initOkAfter (emitAll (s.pbFill .off) (scriptOf .init s)).err) := by
  have h2 : updateBody (emitAll (s.pbFill .off) ((initBytes s.cfgH s.cfgCom).map .cmd)) =
      emitAll (s.pbFill .off) (scriptOf .init s) := by
    rw [updateBody_eq, scriptOf, List.append_assoc, emitAll_append, emitAll_cfgH, emitAll_fb]
    rw [show (s.pbFill .off).cfgH = s.cfgH from rfl, pbFill_off_fb, emitAll_append, emitAll_append]
  unfold initBody
  simp only [emitAll_pbFill, h2]

/-- Everything INIT does (R164): the cleared framebuffer, the answered script, the last failure, `INIT_OK`. -/
theorem initBody_fields (s : State) :
    initBody s =
      { s with
        fb := (s.pbFill .off).fb
        log := s.log ++ answered s (scriptOf .init s)
        err := lastFailure s.err ((answered s (scriptOf .init s)).map Transaction.status)
        initOk := decide (lastFailure s.err ((answered s (scriptOf .init s)).map Transaction.status) = 0)
        answers := s.answers.drop (scriptOf .init s).length } := by
  rw [initBody_eq]
  generalize scriptOf .init s = ts
  rw [emitAll_eq]
  rfl

theorem initBody_fb (s : State) : (initBody s).fb = (s.pbFill .off).fb := by rw [initBody_fields]

/-- INIT's script is 38 transactions (R163, V-P1). -/
theorem scriptOf_init_length (s : State) : (scriptOf .init s).length = 38 := by
  simp [scriptOf, initBytes, windowBytes]

/-- A drawing operation leaves every other register. -/
theorem DrawsOnly.fields {s t : State} (h : DrawsOnly s t) :
    t.cfgH = s.cfgH ∧ t.cfgCom = s.cfgCom ∧ t.cfgAddr = s.cfgAddr ∧ t.cy = s.cy ∧ t.font = s.font ∧
    t.err = s.err ∧ t.initOk = s.initOk ∧ t.port = s.port ∧ t.fontRom = s.fontRom ∧ t.answers = s.answers ∧
    t.log = s.log ∧ t.results = s.results := by
  rw [h.frame]; simp

/-- Every way an operation completes: by drawing, by a script of transactions, or by writing one register. -/
theorem exec_next_cases {i : Instr} {s t : State} (h : exec i s = .next t) :
    (touchesFb i = true → s.cfgH.toNat ≤ 64) ∧
    ((scriptOf i s = [] ∧ touchesFb i = true ∧ DrawsOnly s t) ∨
     (i = .init ∧ t = initBody s) ∨
     (scriptOf i s ≠ [] ∧ i ≠ .init ∧ t = emitAll s (scriptOf i s)) ∨
     (∃ x y, i = .setCursor x y ∧ t = s.setCursor x y) ∨
     (∃ gw gh glen fid, i = .setFont gw gh glen fid ∧ gw.toNat ≤ 16 ∧
        t = s.setFont { fid := fid, gw := gw, gh := gh, glen := glen }) ∨
     (i = .isInitialized ∧ t = driveResult s (initOkByte s.initOk)) ∨
     (i = .getLastError ∧ t = driveResult s s.err) ∨
     (i = .clearErrors ∧ t = s.setErr 0)) := by
  have string : ∀ c, writeStream c s = .next t → DrawsOnly s t := by
    intro c hc
    unfold writeStream at hc
    split at hc
    · cases hc
    · rename_i chars rest _
      obtain ⟨-, rfl⟩ := ite_refused_next hc
      refine ⟨?_, fun P h1 _ hm => renderChars_fb_keeps P _ h1 c chars s rfl hm⟩
      obtain ⟨m, x, hf⟩ := renderChars_frame c chars s
      rw [hf]; rfl
  cases i with
  | init => obtain ⟨hg, h⟩ := fbGate_next h; cases h; exact ⟨fun _ => hg, .inr (.inl ⟨rfl, rfl⟩)⟩
  | update =>
    obtain ⟨hg, h⟩ := fbGate_next h; cases h
    exact ⟨fun _ => hg, .inr (.inr (.inl ⟨by simp [scriptOf], by simp, updateBody_eq s⟩))⟩
  | clean => obtain ⟨hg, h⟩ := fbGate_next h; cases h; exact ⟨fun _ => hg, .inl ⟨rfl, rfl, drawsOnly_pbFill s _⟩⟩
  | fill c => obtain ⟨hg, h⟩ := fbGate_next h; cases h; exact ⟨fun _ => hg, .inl ⟨rfl, rfl, drawsOnly_pbFill s _⟩⟩
  | setCursor x y => cases h; exact ⟨by simp [touchesFb], by simp⟩
  | writeString => obtain ⟨hg, h⟩ := fbGate_next h; exact ⟨fun _ => hg, .inl ⟨rfl, rfl, string _ h⟩⟩
  | writeStringInv => obtain ⟨hg, h⟩ := fbGate_next h; exact ⟨fun _ => hg, .inl ⟨rfl, rfl, string _ h⟩⟩
  | drawPixel x y c => obtain ⟨hg, h⟩ := fbGate_next h; cases h; exact ⟨fun _ => hg, .inl ⟨rfl, rfl, drawsOnly_plot s _⟩⟩
  | drawImage =>
    obtain ⟨hg, h⟩ := fbGate_next h
    obtain ⟨-, rfl⟩ := ite_refused_next h
    exact ⟨fun _ => hg, .inl ⟨rfl, rfl, rfl, fun P _ h2 hm => h2 _ _ (by simp [fbSize]) hm⟩⟩
  | lineH x y len c => obtain ⟨hg, h⟩ := fbGate_next h; cases h; exact ⟨fun _ => hg, .inl ⟨rfl, rfl, drawsOnly_plot s _⟩⟩
  | lineV x y len c => obtain ⟨hg, h⟩ := fbGate_next h; cases h; exact ⟨fun _ => hg, .inl ⟨rfl, rfl, drawsOnly_plot s _⟩⟩
  | rect x1 y1 x2 y2 c => obtain ⟨hg, h⟩ := fbGate_next h; cases h; exact ⟨fun _ => hg, .inl ⟨rfl, rfl, drawsOnly_plot s _⟩⟩
  | waveform x y n c =>
    obtain ⟨hg, h⟩ := fbGate_next h
    obtain ⟨-, rfl⟩ := ite_refused_next h
    exact ⟨fun _ => hg, .inl ⟨rfl, rfl, rfl, fun P h1 _ hm => h1 _ _ hm⟩⟩
  | displayOff => cases h; exact ⟨by simp [touchesFb], .inr (.inr (.inl ⟨by simp [scriptOf], by simp, rfl⟩))⟩
  | displayOn => cases h; exact ⟨by simp [touchesFb], .inr (.inr (.inl ⟨by simp [scriptOf], by simp, rfl⟩))⟩
  | setBrightness v => cases h; exact ⟨by simp [touchesFb], .inr (.inr (.inl ⟨by simp [scriptOf], by simp, rfl⟩))⟩
  | invert v => cases h; exact ⟨by simp [touchesFb], .inr (.inr (.inl ⟨by simp [scriptOf], by simp, rfl⟩))⟩
  | flip v => cases h; exact ⟨by simp [touchesFb], .inr (.inr (.inl ⟨by simp [scriptOf], by simp, rfl⟩))⟩
  | mirror v => cases h; exact ⟨by simp [touchesFb], .inr (.inr (.inl ⟨by simp [scriptOf], by simp, rfl⟩))⟩
  | setFont gw gh glen fid =>
    obtain ⟨hw, rfl⟩ := ite_refused_next h
    exact ⟨by simp [touchesFb], .inr (.inr (.inr (.inr (.inl ⟨gw, gh, glen, fid, rfl, by omega, rfl⟩))))⟩
  | isInitialized => cases h; exact ⟨by simp [touchesFb], by simp⟩
  | getLastError => cases h; exact ⟨by simp [touchesFb], by simp⟩
  | clearErrors => cases h; exact ⟨by simp [touchesFb], by simp⟩
  | writeChar ch c =>
    obtain ⟨hg, h⟩ := fbGate_next h
    obtain ⟨-, rfl⟩ := ite_refused_next h
    refine ⟨fun _ => hg, .inl ⟨rfl, rfl, ?_, fun P h1 _ hm => renderChars_fb_keeps P _ h1 c [ch] s rfl hm⟩⟩
    obtain ⟨m, x, hf⟩ := renderChars_frame c [ch] s
    rw [show renderChar c s ch = [ch].foldl (renderChar c) s from rfl, hf]

/-- Every way a step goes on: idle, a font change, a reserved word, or a completed operation. -/
theorem step_next_cases {s t : State} (h : step s = .next t) :
    (s.port = [] ∧ t = s) ∨
    (∃ fid rows rest, s.port = .installFont fid rows :: rest ∧ t = acceptFont fid rows rest s) ∨
    (∃ w stream rest e, s.port = .operation w stream :: rest ∧ decode w = .error e ∧ t = s.setPort rest) ∨
    (∃ w stream rest i u, s.port = .operation w stream :: rest ∧ decode w = .ok i ∧
      exec i ((s.setPort rest).setStream stream) = .next u ∧ t = u.setStream []) := by
  unfold step at h
  split at h
  · cases h; exact .inl ⟨‹_›, rfl⟩
  · rename_i fid rows rest hp
    cases h; exact .inr (.inl ⟨fid, rows, rest, hp, rfl⟩)
  · rename_i w stream rest hp
    split at h
    · rename_i e he
      cases h; exact .inr (.inr (.inl ⟨w, stream, rest, e, hp, he, rfl⟩))
    · rename_i i hi
      cases hx : exec i (acceptOperation stream rest s) with
      | next u => rw [hx] at h; cases h; exact .inr (.inr (.inr ⟨w, stream, rest, i, u, hp, hi, hx, rfl⟩))
      | fault r => cases r
      | refused r => rw [hx] at h; cases h

/-! ## Runs -/

theorem core_run_next {s u : State} (n : Nat) (h : step s = .next u) :
    Sys2Proof.core.run (n + 1) s = Sys2Proof.core.run n u := by
  have h' : Sys2Proof.core.step s = .next u := h
  simp only [Host.Core.run, h']

theorem core_run_refused {s : State} {r : Refusal} (n : Nat) (h : step s = .refused r) :
    Sys2Proof.core.run (n + 1) s = .refused r := by
  have h' : Sys2Proof.core.step s = .refused r := h
  simp only [Host.Core.run, h']

end Sys2Proof.Machine
end

