-- ==== Sys2Proof/Laws/Glyph.lean ====
section
/-! SUPPORT. The glyph box of a character and the run of a string (R47, R48, R133, R136). -/

namespace Sys2Proof.Machine

theorem glyphEncoded_iff (ch gh : Byte) (glen : HalfWord) :
    glyphEncoded ch gh glen = true ↔ 32 ≤ ch.toNat ∧ (ch.toNat - 32 + 1) * gh.toNat ≤ glen.toNat := by
  unfold glyphEncoded; rw [Bool.and_eq_true, decide_eq_true_eq, decide_eq_true_eq]

/-- Column `col` of a row word is its bit `15 - col` (R47). -/
theorem columnSet_eq (row : HalfWord) (col : Nat) (h : col < 16) : columnSet row col = row.getLsbD (15 - col) := by
  have : ∀ col : Nat, col < 16 → (row <<< col &&& 0x8000#16 ≠ 0#16 ↔ row.getLsbD (15-col) = true) := by
    intro col h
    constructor
    · intro hne
      by_contra hc
      apply hne
      apply BitVec.eq_of_getLsbD_eq
      intro i hi
      rw [BitVec.getLsbD_and, BitVec.getLsbD_shiftLeft]
      by_cases h15 : i = 15
      · subst h15; simp at hc; simp [hc]
      · have : (0x8000#16).getLsbD i = false := by
          have : ∀ i : Fin 16, i.val ≠ 15 → (0x8000#16).getLsbD i.val = false := by decide
          exact this ⟨i, hi⟩ h15
        rw [this]; simp
    · intro ht he
      have := congrArg (fun v => v.getLsbD 15) he
      simp at this
      rw [BitVec.getLsbD_eq_getElem (by omega)] at ht
      simp [ht] at this
      omega
  unfold columnSet
  rw [Bool.eq_iff_iff, decide_eq_true_eq]
  exact this col h

/-- The cells of a glyph box (R133, R134). -/
theorem mem_glyphPixels (s : State) (ch : Byte) (c : Colour) (p : Pixel) :
    p ∈ glyphPixels s ch c ↔
      ∃ r col, r < s.font.gh.toNat ∧ col < s.font.gw.toNat ∧
        p = { x := s.cx + BitVec.ofNat 8 col, y := s.cy + BitVec.ofNat 8 r,
              c := cellColour (glyphRow s ch r) col c } := by
  simp only [glyphPixels, glyphRowPixels, List.mem_flatMap, List.mem_map, List.mem_range, plus8]
  constructor
  · rintro ⟨r, hr, col, hc, rfl⟩; exact ⟨r, col, hr, hc, rfl⟩
  · rintro ⟨r, col, hr, hc, rfl⟩; exact ⟨r, hr, col, hc, rfl⟩

/-- Answered characters rendered one by one are WRITE_CHAR operations one after the other (R135, R136). -/
theorem execAll_writeChar (c : Colour) (chars : List Byte) (s : State) (hs : s.cfgH.toNat ≤ 64)
    (ha : ∀ ch ∈ chars, GlyphAnswered s ch) :
    execAll (chars.map fun ch => .writeChar ch c) s = .next (chars.foldl (renderChar c) s) := by
  induction chars generalizing s with
  | nil => rfl
  | cons ch chars ih =>
    have h1 : exec (.writeChar ch c) s = .next (renderChar c s ch) :=
      (fbGate_le _ hs).trans (if_neg (by rw [glyphUnanswered_eq_false.mpr (ha ch (by simp))]; simp))
    rw [List.map_cons, execAll, h1]
    simp only [List.foldl_cons]
    apply ih
    · rw [renderChar_frame]; exact hs
    · intro ch' hc
      have := ha ch' (by simp [hc])
      rw [renderChar_frame]; exact this

/-- `CX` after a string: one glyph width per encoded character (R136). -/
theorem renderChars_cx (c : Colour) (chars : List Byte) (s : State) :
    (chars.foldl (renderChar c) s).cx = s.cx + BitVec.ofNat 8 (s.font.gw.toNat *
      (chars.filter fun ch => glyphEncoded ch s.font.gh s.font.glen).length) := by
  induction chars generalizing s with
  | nil => simp
  | cons ch chars ih =>
    rw [List.foldl_cons, ih, List.filter_cons]
    have e : (renderChar c s ch).font = s.font := by rw [renderChar_frame]
    rw [e, renderChar_cx]
    split
    · rw [List.length_cons, Nat.mul_add, BitVec.ofNat_add, Nat.mul_one, BitVec.ofNat_toNat, BitVec.setWidth_eq, BitVec.add_assoc, BitVec.add_comm s.font.gw]
    · rfl

end Sys2Proof.Machine
end

