-- ==== Sys2Proof/Laws/PerInstr.lean ====
section
/-! SUPPORT. The family OpcodeField: an operation's word carries its opcode of R63, one lemma per constructor. -/

namespace Sys2Proof.Laws.OpcodeField

/-- The encoded word's field `OPC` is the operation's row of the opcode map. -/
def Statement (i : Instr) : Prop := fieldOPC (encode i) = opcodeOf i

theorem init : Statement (.init) := fieldOPC_packWord ..
theorem update : Statement (.update) := fieldOPC_packWord ..
theorem clean : Statement (.clean) := fieldOPC_packWord ..
theorem fill (c : Colour) : Statement (.fill c) := fieldOPC_packWord ..
theorem setCursor (x : Byte) (y : Byte) : Statement (.setCursor x y) := fieldOPC_packWord ..
theorem writeString : Statement (.writeString) := fieldOPC_packWord ..
theorem writeStringInv : Statement (.writeStringInv) := fieldOPC_packWord ..
theorem drawPixel (x : Byte) (y : Byte) (c : Colour) : Statement (.drawPixel x y c) := fieldOPC_packWord ..
theorem drawImage : Statement (.drawImage) := fieldOPC_packWord ..
theorem lineH (x : Byte) (y : Byte) (len : Byte) (c : Colour) : Statement (.lineH x y len c) := fieldOPC_packWord ..
theorem lineV (x : Byte) (y : Byte) (len : Byte) (c : Colour) : Statement (.lineV x y len c) := fieldOPC_packWord ..
theorem rect (x1 : Byte) (y1 : Byte) (x2 : Byte) (y2 : Byte) (c : Colour) : Statement (.rect x1 y1 x2 y2 c) := fieldOPC_packWord ..
theorem waveform (x : Byte) (y : Byte) (n : Byte) (c : Colour) : Statement (.waveform x y n c) := fieldOPC_packWord ..
theorem displayOff : Statement (.displayOff) := fieldOPC_packWord ..
theorem displayOn : Statement (.displayOn) := fieldOPC_packWord ..
theorem setBrightness (value : Byte) : Statement (.setBrightness value) := fieldOPC_packWord ..
theorem invert (v : Bool) : Statement (.invert v) := fieldOPC_packWord ..
theorem flip (v : Bool) : Statement (.flip v) := fieldOPC_packWord ..
theorem mirror (v : Bool) : Statement (.mirror v) := fieldOPC_packWord ..
theorem setFont (gw : Byte) (gh : Byte) (glen : HalfWord) (fid : Byte) : Statement (.setFont gw gh glen fid) := fieldOPC_packWord ..
theorem isInitialized : Statement (.isInitialized) := fieldOPC_packWord ..
theorem getLastError : Statement (.getLastError) := fieldOPC_packWord ..
theorem clearErrors : Statement (.clearErrors) := fieldOPC_packWord ..
theorem writeChar (ch : Byte) (c : Colour) : Statement (.writeChar ch c) := fieldOPC_packWord ..

end Sys2Proof.Laws.OpcodeField
end

