-- ==== Sys2Proof/Laws/Primitives.lean ====
section
/-! SUPPORT. Which pixels each raster primitive plots (R112 to R115), as a membership. -/

namespace Sys2Proof.Machine

theorem drawnExactly_congr {c : Colour} {hit hit' : Nat → Nat → Prop} {m m' : Memory}
    (e : ∀ a k, hit a k ↔ hit' a k) (h : DrawnExactly c hit m m') : DrawnExactly c hit' m m' :=
  fun a k hk => ⟨fun x => (h a k hk).1 ((e a k).2 x), fun x => (h a k hk).2 fun y => x ((e a k).1 y)⟩

theorem mem_lineHPixels {x y len : Byte} {c : Colour} {p : Pixel} :
    p ∈ lineHPixels x y len c ↔ ∃ i, i < len.toNat ∧ p = { x := x + BitVec.ofNat 8 i, y := y, c := c } := by
  simp only [lineHPixels, List.mem_map, List.mem_range, plus8, eq_comm]

theorem mem_lineVPixels {x y len : Byte} {c : Colour} {p : Pixel} :
    p ∈ lineVPixels x y len c ↔ ∃ i, i < len.toNat ∧ p = { x := x, y := y + BitVec.ofNat 8 i, c := c } := by
  simp only [lineVPixels, List.mem_map, List.mem_range, plus8, eq_comm]

/-- A coordinate lies on a side of `len` pixels from `x1` iff its wrapping distance is below `len` (R7). -/
theorem distance_lt (x x1 len : Byte) : (x - x1).toNat < len.toNat ↔ ∃ i, i < len.toNat ∧ x1 + BitVec.ofNat 8 i = x := by
  constructor
  · intro h; refine ⟨_, h, ?_⟩
    apply BitVec.eq_of_toNat_eq; simp only [BitVec.toNat_add, BitVec.toNat_sub, BitVec.toNat_ofNat]; omega
  · rintro ⟨i, hi, rfl⟩
    have := len.isLt
    simp only [BitVec.toNat_add, BitVec.toNat_sub, BitVec.toNat_ofNat]; omega

theorem mem_waveformPixels (x y : Byte) (c : Colour) (smps : List Byte) (j : Nat) (p : Pixel) :
    p ∈ waveformPixels x y c j smps ↔
      ∃ i smp, smps[i]? = some smp ∧ p = ⟨x + BitVec.ofNat 8 (j+i), y - smp, c⟩ := by
  induction smps generalizing j with
  | nil => simp [waveformPixels]
  | cons a as ih =>
    rw [waveformPixels, List.mem_cons, ih]
    constructor
    · rintro (rfl | ⟨i, smp, h, rfl⟩)
      · exact ⟨0, a, rfl, rfl⟩
      · exact ⟨i+1, smp, by simpa using h, by rw [show j + 1 + i = j + (i+1) by omega]⟩
    · rintro ⟨i, smp, h, rfl⟩
      cases i with
      | zero => left; simp at h; rw [h]; rfl
      | succ i => right; exact ⟨i, smp, by simpa using h, by rw [show j + 1 + i = j + (i+1) by omega]⟩

end Sys2Proof.Machine
end

