-- ==== Sys2Proof/Tests/Slice0.lean ====
section
/-! SUPPORT. The model's own tests: expected results are those of `spec/95_test_vectors.md` (V-…), or follow the rule named; then a witness for each obligation's hypotheses. -/

namespace Sys2Proof.Machine

/-! ## Fixtures of spec/95_test_vectors.md section 0 -/

/-- The row words of font F1. -/
def fontF1 : List HalfWord :=
  List.replicate 240 0 ++ [0x3800, 0x4400, 0x4400, 0x3800, 0x4400, 0x4400, 0x4400, 0x3800, 0, 0]

/-- The row words of font F2. -/
def fontF2 : List HalfWord := [0x8001, 0xFFFF]

/-- A block of height `h` after CLEAN, with F1 selected and F1 and F2 in the store. -/
def cleared (h : Byte) : State :=
  { State.constructed h .altNoremap 0x3C with
    fb := []
    font := { fid := 0, gw := 7, gh := 10, glen := 250 }
    fontRom := [{ fid := 0, rows := fontF1 }, { fid := 1, rows := fontF2 }] }

/-- The same with F2 selected. -/
def clearedF2 (h : Byte) : State := { cleared h with font := { fid := 1, gw := 16, gh := 1, glen := 2 } }

/-- A property of the next state, false of a stop. -/
def after (r : Result) (p : State → Bool) : Bool :=
  match r with
  | .next t => p t
  | .fault _ => false
  | .refused _ => false

/-- The refusal's name, if there is one. -/
def refusal (r : Result) : Option Refusal :=
  match r with
  | .next _ => none
  | .fault _ => none
  | .refused e => some e

/-- The cells of a framebuffer page: columns `x`, `x + 1`, … of page `p`. -/
def page (p x : Nat) (bs : List Byte) : Memory := Memory.cellsFrom (x + 128 * p) bs

/-! ## Well-formedness: the one check, and its ill-formed term (V-G13) -/

theorem test_wellFormed_refuses_width_17 : (Instr.setFont 17 8 100 0).wellFormed = false := by decide
theorem test_wellFormed_accepts_width_16 : (Instr.setFont 16 1 2 1).wellFormed = true := by decide

/-! ## Decoding: words written out from R60 to R63 -/

/-- V-P1 to V-P4 of the protocol family, and the words of programs P4 and P6. -/
theorem test_decode_protocol :
    decode 0x010000000000 = .ok .init ∧ decode 0x020000000000 = .ok .update ∧
    decode 0x0E0000000000 = .ok .displayOff ∧ decode 0x0F0000000000 = .ok .displayOn ∧
    decode 0x104000000000 = .ok (.setBrightness 0x40) ∧ decode 0x110000000001 = .ok (.invert true) ∧
    decode 0x1200000000FE = .ok (.flip false) ∧ decode 0x130000000001 = .ok (.mirror true) := by
  refine ⟨?_, ?_, ?_, ?_, ?_, ?_, ?_, ?_⟩ <;> rfl

/-- V-E1, V-E2 and the words of programs P1, P2 and P5. -/
theorem test_decode_drawing :
    decode 0x030000000000 = .ok .clean ∧ decode 0x040000000001 = .ok (.fill .on) ∧
    decode 0x090000000000 = .ok .drawImage ∧ decode 0x08C805000001 = .ok (.drawPixel 200 5 .on) ∧
    decode 0x0A0007800001 = .ok (.lineH 0 7 128 .on) ∧ decode 0x0B0000400001 = .ok (.lineV 0 0 64 .on) ∧
    decode 0x0C0307010700 = .ok (.rect 3 7 1 7 .off) ∧ decode 0x0D0A00050001 = .ok (.waveform 10 0 5 .on) := by
  refine ⟨?_, ?_, ?_, ?_, ?_, ?_, ?_, ?_⟩ <;> rfl

/-- V-E1, V-E4, the words of program P3 and of the facade. -/
theorem test_decode_text_and_facade :
    decode 0x050E06000000 = .ok (.setCursor 14 6) ∧ decode 0x060000000000 = .ok .writeString ∧
    decode 0x070000000000 = .ok .writeStringInv ∧ decode 0x140810010008 = .ok (.setFont 8 16 256 8) ∧
    decode 0x181F00000001 = .ok (.writeChar 31 .on) ∧ decode 0x150000000000 = .ok .isInitialized ∧
    decode 0x160000000000 = .ok .getLastError ∧ decode 0x170000000000 = .ok .clearErrors := by
  refine ⟨?_, ?_, ?_, ?_, ?_, ?_, ?_, ?_⟩ <;> rfl

/-- V-E3: reserved opcodes are refused by name. -/
theorem test_decode_reserved :
    decode 0x000000000000 = .error (.reservedOpcode 0x00) ∧
    decode 0x190000000001 = .error (.reservedOpcode 0x19) ∧
    decode 0xFF0102030405 = .error (.reservedOpcode 0xFF) := by
  refine ⟨?_, ?_, ?_⟩ <;> rfl

/-- V-E1 through the table's numbering. -/
theorem test_decodeTableWord : decodeTableWord 48 0x0C0101040501 = some (.rect 1 1 4 5 .on) := by rfl

/-- V-E1, the other way round. -/
theorem test_encode : encode (.setFont 7 10 250 0) = 0x14070A00FA00 := by rfl

/-! ## Assembler text (R68, R69), lines and words of the programs P1 to P6 -/

theorem test_assemble_P2 :
    assemble ["CLEAN", "RECT 1, 1, 4, 5, ON", "DRAW_SQUARE 6, 0, 6, 0, ON ; = RECT", "", "RECT 3, 7, 1, 7, OFF"] =
      some [.operation 0x030000000000 [], .operation 0x0C0101040501 [], .operation 0x0C0600060001 [],
            .operation 0x0C0307010700 []] := by decide +kernel

theorem test_assemble_P3 :
    assemble ["SET_FONT 7, 10, 0xFA, 0", "WRITE_STRING << \"88\"", "WRITE_CHAR '8', WHITE", "FLIP true"] =
      some [.operation 0x14070A00FA00 [], .operation 0x060000000000 [0x38, 0x38, 0x00],
            .operation 0x183800000001 [], .operation 0x120000000001 []] := by decide +kernel

theorem test_assemble_P5 :
    assembleLine "WAVEFORM 1, 7, 5, ON << [1, 3, 4, 0, 7]" =
      some (some (.waveform 1 7 5 .on, [1, 3, 4, 0, 7])) := by decide +kernel

theorem test_assemble_refuses :
    assembleLine "SET_CURSOR 256, 0" = none ∧ assembleLine "LINE_H 1, 2, 3" = none ∧
    assembleLine "CLEAN << [1]" = none := by decide +kernel

/-! ## Construction (V-R1, V-R2, V-R3, V-R4) -/

theorem test_construct_refuses :
    refusal (construct 0 none none) = some .badHeight ∧ refusal (construct 12 none none) = some .badHeight := by
  decide

theorem test_construct_accepts_64 : after (construct 64 none none) (fun t => t.err == 0 && !t.initOk) = true := by
  decide

theorem test_construct_72_records_the_sentinel :
    ∃ t, construct 72 none none = .next t ∧ t.err = Config.cfgErr ∧ t.initOk = false := ⟨_, rfl, rfl, rfl⟩

/-! ## The framebuffer family -/

/-- V-B5. -/
theorem test_fill_on : after (exec (.fill .on) (cleared 8)) (fun t => t.fb.bytes 129 == List.replicate 128 0xFF ++ [0]) = true := by
  decide +kernel

/-- V-B5. -/
theorem test_clean : after (exec .clean { cleared 8 with fb := [(3, 0xFF), (127, 0x01)] }) (fun t => t.fb == []) = true := by
  decide +kernel

/-- V-B6: the two extra bytes are not read. -/
theorem test_drawImage :
    after (exec .drawImage { cleared 8 with stream := (List.range 128).map (fun i => BitVec.ofNat 8 (i + 1)) ++ [0xAA, 0xBB] })
      (fun t => t.fb.bytes 129 == (List.range 128).map (fun i => BitVec.ofNat 8 (i + 1)) ++ [0] &&
        t.stream == [0xAA, 0xBB]) = true := by decide +kernel

/-- V-B7. -/
theorem test_drawImage_short :
    refusal (exec .drawImage { cleared 8 with stream := List.replicate 127 1 }) = some .imageTooShort := by
  decide +kernel

/-- V-B1: the last pixel of a 64-row screen. -/
theorem test_drawPixel_corner : after (exec (.drawPixel 127 63 .on) (cleared 64)) (fun t => t.fb == [(1023, 0x80)]) = true := by
  decide

/-- V-B3: an original 1 is cleared, the other bits kept. -/
theorem test_drawPixel_off :
    after (exec (.drawPixel 0 0 .off) { cleared 64 with fb := [(0, 0xFF)] }) (fun t => t.fb == [(0, 0xFE)]) = true := by
  decide

/-! ## Raster primitives -/

/-- V-L1. -/
theorem test_lineH : after (exec (.lineH 0 2 4 .on) (cleared 64)) (fun t => t.fb == page 0 0 [4, 4, 4, 4]) = true := by
  decide

/-- V-L2: the column wraps modulo 256. -/
theorem test_lineH_wraps : after (exec (.lineH 250 0 10 .on) (cleared 64)) (fun t => t.fb == page 0 0 [1, 1, 1, 1]) = true := by
  decide

/-- V-L5: across a page boundary. -/
theorem test_lineV : after (exec (.lineV 3 6 4 .on) (cleared 16)) (fun t => t.fb == [(3, 0xC0), (131, 0x03)]) = true := by
  decide

/-- V-L6 by its last page: rows 64 to 254 clip. -/
theorem test_lineV_clips :
    after (exec (.lineV 0 0 255 .on) (cleared 64))
      (fun t => t.fb == (List.range 8).map fun p => (128 * p, 0xFF)) = true := by decide +kernel

/-- V-S7. -/
theorem test_rect :
    after (exec (.rect 1 1 4 5 .on) (cleared 64)) (fun t => t.fb == page 0 1 [0x3E, 0x22, 0x22, 0x3E]) = true := by decide

/-- V-L9: a side of wrapped length 0. -/
theorem test_rect_swapped : after (exec (.rect 4 0 3 0 .on) (cleared 8)) (fun t => t.fb == page 0 3 [1, 1]) = true := by
  decide

/-- V-S8. -/
theorem test_waveform :
    after (exec (.waveform 1 7 5 .on) { cleared 64 with stream := [1, 3, 4, 0, 7] })
      (fun t => t.fb == page 0 1 [0x40, 0x10, 0x08, 0x80, 0x01] && t.stream == []) = true := by decide

/-- V-L14: underflow wraps, and a wrapped row may be visible. -/
theorem test_waveform_wraps :
    after (exec (.waveform 10 0 5 .on) { cleared 64 with stream := [1, 192, 193, 200, 255] })
      (fun t => t.fb == [(14, 0x02), (908, 0x80), (909, 0x01)]) = true := by decide

/-! ## Glyph renderer -/

/-- V-G15. -/
theorem test_setCursor : after (exec (.setCursor 200 250) (cleared 64)) (fun t => t.cx == 200 && t.cy == 250) = true := by
  decide

/-- V-E4, and V-G13. -/
theorem test_setFont :
    after (exec (.setFont 8 16 256 8) (cleared 64))
      (fun t => t.font == { fid := 8, gw := 8, gh := 16, glen := 256 } && t.cx == 0) = true ∧
    refusal (exec (.setFont 17 8 100 0) (cleared 64)) = some .fontTooWide := by decide

/-- V-G5: columns 3 to 6 clip. -/
theorem test_writeChar_clips :
    after (exec (.writeChar 0x38 .on) { cleared 16 with cx := 125 })
      (fun t => t.fb == page 0 125 [0x00, 0x76, 0x89] && t.cx == 132 && t.cy == 0) = true := by decide +kernel

/-- V-G10: background cells are painted in the other colour. -/
theorem test_writeChar_background :
    after (exec (.writeChar 0x20 .on) { clearedF2 8 with fb := page 0 0 (List.replicate 17 0xFF) })
      (fun t => t.fb == page 0 0 ([0xFF] ++ List.replicate 14 0xFE ++ [0xFF, 0xFF]) && t.cx == 16) = true := by
  decide +kernel

/-- V-G2. -/
theorem test_writeString :
    after (exec .writeString { cleared 64 with stream := [0x38, 0x38, 0x00, 0x41] })
      (fun t => t.fb == page 0 0 [0x00, 0x76, 0x89, 0x89, 0x89, 0x76, 0x00, 0x00, 0x76, 0x89, 0x89, 0x89, 0x76] &&
        t.cx == 14 && t.stream == [0x41]) = true := by decide +kernel

/-- V-G14. -/
theorem test_writeString_unterminated :
    refusal (exec .writeString { cleared 64 with stream := [0x38] }) = some .stringUnterminated := by decide

/-- V-G1. -/
theorem test_writeStringInv :
    after (exec .writeStringInv { cleared 16 with stream := [0x38, 0x00] })
      (fun t => t.fb == page 0 0 [0xFF, 0x89, 0x76, 0x76, 0x76, 0x89, 0xFF] ++ page 1 0 (List.replicate 7 0x03) &&
        t.cx == 7) = true := by decide +kernel

/-- V-G4: rejected characters. -/
theorem test_writeStringInv_rejects :
    after (exec .writeStringInv { cleared 16 with stream := [31, 0x39, 0x00] })
      (fun t => t.fb == [] && t.cx == 0 && t.stream == []) = true := by decide

/-! ## Protocol sequencer -/

/-- The commands and sizes of a log's transactions with their statuses. -/
def logOf (s : State) : List (Option Byte × Nat × Byte) :=
  s.log.map fun e =>
    match e.tx with
    | .cmd b => (some b, 1, e.status)
    | .data bs => (none, bs.length, e.status)

/-- V-P2: INIT's bytes for 8 rows, the OPEN operands standing for themselves. -/
theorem test_initBytes :
    initBytes 8 .altNoremap ++ windowBytes 8 =
      [0xAE, 0xD5, Config.pClkdiv, 0xA8, 0x07, 0xD3, 0x00, 0x40, 0x8D, Config.pChargePump, 0xA0, 0xC0, 0xDA, 0x12,
       0x81, Config.pContrastDefault, 0xD9, Config.pPrecharge, 0xDB, Config.pVcomh, 0xA4, 0xA6, 0x20, 0x00, 0x21, 0x00,
       0x7F, 0x22, 0x00, 0x00, 0xAF, 0x21, 0x00, 0x7F, 0x22, 0x00, 0x00] := rfl

/-- V-P3. -/
theorem test_comPinsOperand :
    [ComPins.seqNoremap, .seqRemap, .altNoremap, .altRemap].map comPinsOperand = [0x02, 0x22, 0x12, 0x32] := by decide

/-- V-P7: every transaction is emitted, and the last failure wins. -/
theorem test_init_fails :
    after (exec .init { cleared 32 with answers := [4] ++ List.replicate 36 0 ++ [6] })
      (fun t => t.log.length == 38 && t.err == 6 && !t.initOk && t.fb == []) = true := by decide +kernel

/-- V-P1 with 8 rows. -/
theorem test_init_succeeds :
    after (exec .init { cleared 8 with fb := [(5, 0x10)], answers := List.replicate 38 0 })
      (fun t => t.err == 0 && t.initOk && t.fb == []) = true := by decide +kernel

/-- V-P5. -/
theorem test_update :
    after (exec .update { cleared 16 with answers := [0, 0, 0, 0, 0, 0, 4] })
      (fun t => logOf t == [(some 0x21, 1, 0), (some 0x00, 1, 0), (some 0x7F, 1, 0), (some 0x22, 1, 0),
        (some 0x00, 1, 0), (some 0x01, 1, 0), (none, 256, 4)] && t.err == 4 && !t.initOk) = true := by decide +kernel

/-- V-P4. -/
theorem test_displayOff :
    after (exec .displayOff { cleared 64 with answers := [0] }) (fun t => logOf t == [(some 0xAE, 1, 0)]) = true := by
  decide

/-- V-P9: ready and error together. -/
theorem test_displayOn :
    after (exec .displayOn { cleared 64 with answers := [2], initOk := true })
      (fun t => logOf t == [(some 0xAF, 1, 2)] && t.err == 2 && t.initOk) = true := by decide

/-- V-P10. -/
theorem test_setBrightness :
    after (exec (.setBrightness 0x10) { cleared 64 with answers := [7, 0] })
      (fun t => logOf t == [(some 0x81, 1, 7), (some 0x10, 1, 0)] && t.err == 7) = true := by decide

/-- V-P4. -/
theorem test_invert_flip_mirror :
    [(Instr.invert true, 0xA7), (.invert false, 0xA6), (.flip true, 0xC8), (.flip false, 0xC0), (.mirror true, 0xA1),
      (.mirror false, (0xA0 : Byte))].all (fun p =>
        after (exec p.1 { cleared 64 with answers := [0] }) fun t => logOf t == [(some p.2, 1, 0)]) = true := by
  decide

/-! ## Facade -/

/-- V-F3 and V-F4. -/
theorem test_isInitialized :
    after (exec .isInitialized (cleared 64)) (fun t => t.results == [0x00]) = true ∧
    after (exec .isInitialized { cleared 64 with initOk := true }) (fun t => t.results == [0x01]) = true := by decide

/-- V-F5: reading does not clear. -/
theorem test_getLastError :
    after (exec .getLastError { cleared 64 with err := 9, results := [9] })
      (fun t => t.results == [9, 9] && t.err == 9) = true := by decide

/-- V-F2. -/
theorem test_clearErrors :
    after (exec .clearErrors { cleared 64 with err := 3, initOk := true }) (fun t => t.err == 0 && t.initOk) = true := by
  decide

/-! ## Steps -/

/-- R9: a word placed by the host is the next operation, from reset. -/
theorem test_step_runs_the_placed_word :
    after (step (State.reset.withFetchWord 48 0x05C8FA000000)) (fun t => t.cx == 200 && t.cy == 250 && t.port == []) = true := by
  decide

/-- V-E3: a reserved word is taken and does nothing. -/
theorem test_step_drops_a_reserved_word :
    step { cleared 64 with port := [.operation 0x190000000001 []] } = .next (cleared 64) := by rfl

/-- R57: the host changes a font between operations, and the next read sees it. -/
theorem test_step_installs_a_font :
    after (step { cleared 64 with port := [.installFont 1 [0x1234]] })
      (fun t => fontRead t.fontRom 1 0 == some 0x1234 && fontRead t.fontRom 0 240 == some 0x3800) = true := by
  decide +kernel

/-! ## Witnesses: a concrete state and operands that meet each obligation's hypotheses, clause by clause -/

/-- A cleared block meets the invariant (used for every obligation that assumes it). -/
theorem cleared_inv (h : Byte) (h1 : 0 < h.toNat) (h2 : h.toNat % 8 = 0) : Inv (cleared h) where
  height_pos := h1
  height_mul := h2
  fb_wf := rfl
  fb_below := rfl
  font_width := by show (7 : Byte).toNat ≤ 16; decide
  config_error := fun _ => rfl
  log_addr := by intro e he; cases he
  log_data := by intro e he; cases he

/-- All 1024 pixels of an 8-row screen, in one colour. -/
def allPixels8 (c : Colour) : List Pixel :=
  (List.range 128).flatMap fun i => (List.range 8).map fun j => { x := BitVec.ofNat 8 i, y := BitVec.ofNat 8 j, c := c }

theorem mem_allPixels8 (c : Colour) (x y : Byte) (h : inb 8 x y = true) : ∃ p ∈ allPixels8 c, p.x = x ∧ p.y = y := by
  rw [inb_iff] at h
  refine ⟨{ x := x, y := y, c := c }, ?_, rfl, rfl⟩
  simp only [allPixels8, List.mem_flatMap, List.mem_map, List.mem_range]
  exact ⟨x.toNat, h.1, y.toNat, h.2, by simp⟩

/-- Heights 0 and 12 are refused, 8 and 64 carry no error, 72 carries one. -/
theorem witness_ConstructionSetsEveryRegister :
    ((0 : Byte).toNat = 0) ∧ ((12 : Byte).toNat % 8 ≠ 0) ∧
    ((8 : Byte).toNat ≠ 0 ∧ (8 : Byte).toNat % 8 = 0 ∧ (8 : Byte).toNat ≤ 64) ∧
    ((64 : Byte).toNat ≠ 0 ∧ (64 : Byte).toNat % 8 = 0 ∧ (64 : Byte).toNat ≤ 64) ∧
    ((72 : Byte).toNat ≠ 0 ∧ (72 : Byte).toNat % 8 = 0 ∧ 64 < (72 : Byte).toNat) := by decide

theorem witness_ConstructionEstablishesInvariant : ∃ t, construct 248 (some .seqRemap) none = .next t := ⟨_, rfl⟩

/-- The opcodes at each end of the ranges. -/
theorem witness_ReservedOpcodesAreExactlyTheRest :
    let opc : OpWord → Nat := fun w => w.toNat / 2 ^ 40
    opc 0x0100000000FF = 1 ∧ opc 0x18FFFFFFFFFF = 0x18 ∧ opc 0x00FFFFFFFFFF = 0 ∧ opc 0x190000000000 = 0x19 ∧
    opc 0xFFFFFFFFFFFF = 0xFF := by decide

theorem witness_IgnoredBitsDoNotDecode :
    decode 0x0801031234FF = .ok (.drawPixel 1 3 .on) ∧
    (0x0801031234FF : OpWord) &&& formatMask .xyk = 0x080103000001 &&& formatMask .xyk ∧
    (0x0801031234FF : OpWord) ≠ 0x080103000001 := by refine ⟨?_, ?_, ?_⟩ <;> decide

theorem witness_EncodeOfDecode : decode 0x04AABBCCDDFE = .ok (.fill .off) := by rfl

/-- One word that completes, one that is refused. -/
theorem witness_StepRunsTheIssuedOperation :
    (∃ t, exec .isInitialized { cleared 8 with port := [], stream := [1] } = .next t) ∧ decode 0x150000000000 = .ok .isInitialized ∧
    exec (.setFont 17 0 0 0) { cleared 8 with port := [], stream := [] } = .refused .fontTooWide ∧
    decode 0x141100000000 = .ok (.setFont 17 0 0 0) := ⟨⟨_, rfl⟩, rfl, rfl, rfl⟩

theorem witness_ReservedWordDoesNothing :
    ({ cleared 8 with port := [.operation 0x00AB00000000 [7]] } : State).port = .operation 0x00AB00000000 [7] :: [] ∧
    (0x00AB00000000 : OpWord).toNat / 2 ^ 40 = 0 ∧ 0x19 ≤ (0x190000000001 : OpWord).toNat / 2 ^ 40 := by
  refine ⟨rfl, ?_, ?_⟩ <;> decide

theorem witness_StepWithoutOperation :
    (cleared 8).port = [] ∧
    ({ cleared 8 with port := [.installFont 1 [0x1234]] } : State).port = .installFont 1 [0x1234] :: [] ∧
    (0 : Byte) ≠ 1 := by refine ⟨rfl, rfl, ?_⟩; decide

/-- The first and the last pixel, byte and bit of a 64-row screen. -/
theorem witness_PixelAddressingIsABijection :
    (64 : Byte).toNat % 8 = 0 ∧ inb 64 0 0 = true ∧ inb 64 127 63 = true ∧ 1023 < 16 * (64 : Byte).toNat ∧ 7 < 8 := by
  decide

theorem witness_PlotOrderDoesNotMatter :
    Memory.wf [(0, 0xFF)] = true ∧ (∀ p ∈ lineHPixels 0 0 2 .off, p.c = .off) ∧
    (lineHPixels 0 0 2 .off).Perm (lineHPixels 0 0 2 .off).reverse :=
  ⟨rfl, by decide, (List.reverse_perm _).symm⟩

/-- The heights at both ends, for every obligation of the framebuffer and primitive families. -/
theorem witness_drawing :
    (cleared 64).cfgH.toNat ≤ 64 ∧ (cleared 64).fb.wf = true ∧ (cleared 8).cfgH.toNat ≤ 64 ∧ (cleared 8).fb.wf = true := by
  decide

theorem witness_FillAndCleanWriteEveryByte : (cleared 64).cfgH.toNat ≤ 64 ∧ (cleared 64).fb.wf = true ∧
    1023 < 16 * (cleared 64).cfgH.toNat ∧ 16 * (cleared 64).cfgH.toNat ≤ 1024 := by decide

theorem witness_FillEqualsSettingEveryPixel :
    Inv (cleared 8) ∧ (∃ t, exec (.fill .on) (cleared 8) = .next t) ∧ (∀ p ∈ allPixels8 .on, p.c = .on) ∧
    (∀ x y, inb (cleared 8).cfgH x y = true → ∃ p ∈ allPixels8 .on, p.x = x ∧ p.y = y) := by
  refine ⟨cleared_inv 8 (by decide) (by decide), ⟨_, rfl⟩, ?_, mem_allPixels8 .on⟩
  simp only [allPixels8, List.mem_flatMap, List.mem_map]
  rintro p ⟨i, _, j, _, rfl⟩
  rfl

/-- A stream of exactly `N` bytes, and one a byte shorter. -/
theorem witness_DrawImageCopiesTheStream :
    16 * ({ cleared 8 with stream := List.replicate 128 0xAB } : State).cfgH.toNat ≤ (List.replicate 128 (0xAB : Byte)).length ∧
    (List.replicate 127 (0xAB : Byte)).length < 16 * (cleared 8).cfgH.toNat := by decide +kernel

/-- Both edges of the screen. -/
theorem witness_ClippedPixelChangesNothing :
    (cleared 64).cfgH.toNat ≤ 64 ∧ 128 ≤ (128 : Byte).toNat ∧ (cleared 64).cfgH.toNat ≤ (64 : Byte).toNat := by decide

theorem witness_SetThenClearLeavesTheBitClear :
    (cleared 64).cfgH.toNat ≤ 64 ∧ (cleared 64).fb.wf = true ∧ inb (cleared 64).cfgH 5 9 = true := by decide

/-- V-S7's box, and the widest box whose side does not wrap. -/
theorem witness_OrderedRectIsTheBorder :
    (cleared 64).fb.wf = true ∧ (∃ t, exec (.rect 1 1 4 5 .on) (cleared 64) = .next t) ∧
    (1 : Byte).toNat ≤ (4 : Byte).toNat ∧ (4 : Byte).toNat < (1 : Byte).toNat + 255 ∧
    (0 : Byte).toNat ≤ (254 : Byte).toNat ∧ (254 : Byte).toNat < (0 : Byte).toNat + 255 := by
  refine ⟨rfl, ⟨_, rfl⟩, ?_⟩; decide

/-- As many samples as asked for, and one too few. -/
theorem witness_WaveformDrawsItsSamples :
    (5 : Byte).toNat ≤ ({ cleared 64 with stream := [1, 3, 4, 0, 7] } : State).stream.length ∧
    ({ cleared 64 with stream := [1, 3, 4, 0] } : State).stream.length < (5 : Byte).toNat := by decide

theorem witness_CursorAndFontAreSetAlone : (16 : Byte).toNat ≤ 16 ∧ 16 < (17 : Byte).toNat := by decide

/-- V-S6's character and font; its last row is the font's last. -/
theorem witness_WriteCharPaintsTheGlyphBox :
    (cleared 64).cfgH.toNat ≤ 64 ∧ (cleared 64).fb.wf = true ∧ (cleared 64).font.gw.toNat ≤ 16 ∧ 32 ≤ (0x38 : Byte).toNat ∧
    ((0x38 : Byte).toNat - 32 + 1) * (cleared 64).font.gh.toNat ≤ (cleared 64).font.glen.toNat ∧
    (∀ r, r < (cleared 64).font.gh.toNat →
      fontRead (cleared 64).fontRom (cleared 64).font.fid (((0x38 : Byte).toNat - 32) * (cleared 64).font.gh.toNat + r) =
        some (fontF1.getD (240 + r) 0)) := by decide +kernel

/-- Code 31, code 57 just past F1's last character, and a listed table one word short. -/
theorem witness_UnencodedCharacterIsRejected :
    (31 : Byte).toNat < 32 ∧ (cleared 64).font.glen.toNat < ((0x39 : Byte).toNat - 32 + 1) * (cleared 64).font.gh.toNat ∧
    fontRead [{ fid := 0, rows := List.replicate 249 0 }] 0 (((0x38 : Byte).toNat - 32) * (10 : Byte).toNat + 9) = none := by
  decide +kernel

theorem witness_StringWritesEachCharacter :
    (0x00 : Byte) ∉ ([0x38, 31] : List Byte) ∧ (cleared 64).cfgH.toNat ≤ 64 ∧
    ({ cleared 64 with stream := [0x38, 31, 0x00, 9] } : State).stream = [0x38, 31] ++ 0x00 :: [9] ∧
    (∀ ch ∈ [0x38, 31], GlyphAnswered { cleared 64 with stream := [0x38, 31, 0x00, 9] } ch) := by
  refine ⟨by decide, by decide, rfl, fun ch hch => glyphUnanswered_eq_false.mp ?_⟩
  simp only [List.mem_cons, List.not_mem_nil, or_false] at hch
  rcases hch with rfl | rfl <;> decide +kernel

theorem witness_UnansweredStringIsRefused :
    ¬ GlyphAnswered { cleared 64 with fontRom := [{ fid := 0, rows := [] }], stream := [0x38, 0x00] } 0x38 := by
  rw [← glyphUnanswered_eq_false]; decide +kernel

/-- Both sides of the height limit, for INIT and UPDATE. -/
theorem witness_InitRunsItsScript :
    (cleared 64).cfgH.toNat ≤ 64 ∧ (cleared 64).fb.wf = true ∧ 64 < (cleared 72).cfgH.toNat := by decide

theorem witness_InitFailsOnAnEarlierError :
    ({ cleared 32 with err := 3 } : State).cfgH.toNat ≤ 64 ∧ ({ cleared 32 with err := 3 } : State).err ≠ 0 := by decide

theorem witness_SuccessfulBoot : (∃ s, construct 64 none none = .next s) ∧ (64 : Byte).toNat ≤ 64 := ⟨⟨_, rfl⟩, by decide⟩

theorem witness_ConfigurationErrorGate :
    64 < (cleared 72).cfgH.toNat ∧ touchesFb .update = true ∧ touchesFb .clearErrors = false ∧
    Instr.clearErrors.wellFormed = true := by decide

/-- Completed operations for the rules about whole operations: one that fails, one that clears, INIT. -/
theorem witness_rules_about_operations :
    (∃ t, exec .displayOn { cleared 64 with answers := [2] } = .next t) ∧ Instr.displayOn ≠ .clearErrors ∧
    (∃ t, exec .clearErrors { cleared 64 with err := 3 } = .next t ∧ t.err = 0) ∧ (3 : Byte) ≠ 0 ∧
    (∃ t, exec .init (cleared 64) = .next t) := by
  refine ⟨⟨_, rfl⟩, ?_, ⟨_, rfl, rfl⟩, ?_, ⟨_, rfl⟩⟩ <;> decide

theorem witness_ConfigurationRegistersNeverChange :
    ∃ t, step { cleared 8 with port := [.operation 0x170000000000 []] } = .next t := ⟨_, rfl⟩

/-- The same framebuffer with another cursor, error and answers. -/
theorem witness_ScriptIgnoresErrorsAndAnswers :
    (∃ t, exec .update (cleared 8) = .next t) ∧
    (∃ t, exec .update { cleared 8 with cx := 9, err := 7, initOk := true, answers := [1] } = .next t) :=
  ⟨⟨_, rfl⟩, ⟨_, rfl⟩⟩

theorem witness_StepKeepsInvariant :
    Inv (cleared 64) ∧ ∃ t, step (cleared 64) = .next t := ⟨cleared_inv 64 (by decide) (by decide), ⟨_, rfl⟩⟩

/-- A log with one data block behind its window. -/
theorem witness_StepKeepsWindowsBeforeData :
    WindowsPrecedeData (updateBody (cleared 8)) ∧ ∃ t, step (updateBody (cleared 8)) = .next t := by
  refine ⟨?_, ⟨_, rfl⟩⟩
  intro before bs after h
  rw [updateBody_eq, emitAll_eq] at h
  simp only [List.map_append, answered_tx] at h
  have hl : (cleared 8).log.map Transaction.tx = [] := rfl
  rw [hl, List.nil_append] at h
  rcases List.append_eq_append_iff.mp h with ⟨as, h1, h2⟩ | ⟨as, h1, h2⟩
  · cases as with
    | nil => exact ⟨[], (by simpa using h1 : before = (windowBytes (cleared 8).cfgH).map Tx.cmd)⟩
    | cons a as => have := congrArg List.length h2; simp at this
  · cases as with
    | nil => exact ⟨[], (by simpa using h1.symm : before = (windowBytes (cleared 8).cfgH).map Tx.cmd)⟩
    | cons a as =>
      simp only [List.cons_append, List.cons.injEq] at h2
      have : Tx.data bs ∈ (windowBytes (cleared 8).cfgH).map Tx.cmd := by rw [h1, ← h2.1]; simp
      simp at this

/-- Program P6's first word, run under a configuration error. -/
theorem witness_ConfigurationErrorNeverInitializes :
    64 < (72 : Byte).toNat ∧ ∃ s, construct 72 none none = .next s ∧
      ∃ t, Sys2Proof.core.run 1 { s with port := [.operation 0x160000000000 []] } = .next t :=
  ⟨by decide, _, rfl, _, rfl⟩

/-- A port with a drawing word and a reserved word. -/
theorem witness_StreamlessWordsRunSafely :
    (cleared 64).cfgH.toNat ≤ 64 ∧ decode 0x0A0007800001 = .ok (.lineH 0 7 128 .on) ∧
    (Instr.lineH 0 7 128 .on).wellFormed = true ∧ decode 0x190000000001 = .error (.reservedOpcode 0x19) :=
  ⟨by decide, rfl, rfl, rfl⟩

/-- A name is written as its characters. -/
theorem nameSpelling (c : Nat) (cs : List Nat) (h : isWordCode c && !decide (0x30 ≤ c ∧ c ≤ 0x39) && cs.all isWordCode) :
    WordSpelling (.name (c :: cs)) (c :: cs) := by
  simp only [Bool.and_eq_true, List.all_eq_true, Bool.not_eq_true', decide_eq_false_iff_not] at h
  exact .name h.1.1 h.1.2 h.2

/-- A line with a quoted character, `WHITE`, a tab and a comment. -/
theorem witness_AssembledLinesAreTheirOperations_quoted :
    LineSpelling (.name (codesOf "WRITE_CHAR") :: [Token.num (0x38 : Byte).toNat, .name (codesOf "WHITE")].intersperse .comma)
      (codesOf "WRITE_CHAR '8',\tWHITE ; eight") ∧ Token.name (codesOf "WHITE") ∈ colourTokens .on := by
  refine ⟨?_, by decide⟩
  have h : codesOf "WRITE_CHAR '8',\tWHITE ; eight" = codesOf "WRITE_CHAR" ++ (0x20 :: 0x27 :: 0x38 :: 0x27 :: 0x2C ::
    0x09 :: (codesOf "WHITE" ++ (0x20 :: 0x3B :: codesOf " eight"))) := by decide
  rw [h]
  exact .word (nameSpelling _ _ (by decide)) (by decide) (.blank (.inl rfl) (.quoted (by decide) (.comma (.blank (.inr rfl)
    (.word (nameSpelling _ _ (by decide)) (by decide) (.blank (.inl rfl) (.comment _)))))))

/-- A line with a hexadecimal and a decimal number and the colour `0`. -/
theorem witness_AssembledLinesAreTheirOperations_numbers :
    LineSpelling (.name (codesOf "DRAW_PIXEL") :: [Token.num (127 : Byte).toNat, .num (63 : Byte).toNat, .num 0].intersperse .comma)
      (codesOf "DRAW_PIXEL 0x7f,63,0") ∧ Token.num 0 ∈ colourTokens .off := by
  refine ⟨?_, by decide⟩
  have h : codesOf "DRAW_PIXEL 0x7f,63,0" = codesOf "DRAW_PIXEL" ++ (0x20 :: ([0x30, 0x78, 0x37, 0x66] ++ (0x2C ::
    ([6, 3].map (0x30 + ·) ++ (0x2C :: ([0].map (0x30 + ·) ++ [])))))) := by decide
  rw [h]
  refine .word (nameSpelling _ _ (by decide)) (by decide) (.blank (.inl rfl) (.word
    (.hex (d := 7) (ds := [15]) (.cons (.inl (by decide)) (.cons (.inr (by decide)) .nil))) (by decide) (.comma (.word
    (.decimal (d := 6) (ds := [3]) (by decide)) (by decide) (.comma (.word (.decimal (d := 0) (ds := []) (by decide))
    (by decide) .done))))))

/-- Each form of stream, after an operation the other tests do not write it after. -/
theorem witness_AssembledLinesAreTheirOperations_streams :
    (StreamTokens [0x38, 0x00] [.stream, .openBracket, .num 0x38, .comma, .num 0x00, .closeBracket] ∧
      LineSpelling (.name (codesOf "WRITE_STRING") :: [.stream, .openBracket, .num 0x38, .comma, .num 0x00, .closeBracket])
        (codesOf "WRITE_STRING<<['8',0]")) ∧
    (StreamTokens [0x38, 0x00] [.stream, .text (codesOf "8")] ∧
      LineSpelling (.name (codesOf "DRAW_IMAGE") :: [.stream, .text (codesOf "8")]) (codesOf "DRAW_IMAGE << \"8\"")) ∧
    StreamTokens [] [] := by
  refine ⟨⟨.bytes [0x38, 0x00], ?_⟩, ⟨.text (codesOf "8"), ?_⟩, .none⟩
  · have h : codesOf "WRITE_STRING<<['8',0]" = codesOf "WRITE_STRING" ++ (0x3C :: 0x3C :: 0x5B :: 0x27 :: 0x38 :: 0x27 :: 0x2C ::
      ([0].map (0x30 + ·) ++ [0x5D])) := by decide
    rw [h]
    exact .word (nameSpelling _ _ (by decide)) (by decide) (.stream (.openBracket (.quoted (by decide) (.comma (.word
      (.decimal (d := 0) (ds := []) (by decide)) (by decide) (.closeBracket .done))))))
  · have h : codesOf "DRAW_IMAGE << \"8\"" = codesOf "DRAW_IMAGE" ++ (0x20 :: 0x3C :: 0x3C :: 0x20 :: 0x22 ::
      (codesOf "8" ++ 0x22 :: [])) := by decide
    rw [h]
    exact .word (nameSpelling _ _ (by decide)) (by decide) (.blank (.inl rfl) (.stream (.blank (.inl rfl)
      (.text (by decide) .done))))

/-- A boolean, a line that holds no operation, and a program of both kinds of line. -/
theorem witness_AssembledLinesAreTheirOperations_programs :
    Token.num 1 ∈ boolTokens true ∧ LineSpelling [] (codesOf " ;") ∧ assemble [] = some [] ∧
    assembleLine " ;" = some none ∧ assembleLine "FLIP 1" = some (some (.flip true, [])) := by
  refine ⟨by decide, ?_, rfl, by decide, by decide⟩
  exact .blank (.inl rfl) (.comment [])

/-- Above 64 rows, from a state with an INIT word and a word that runs. -/
theorem witness_StepKeepsConfigurationError :
    64 < (cleared 72).cfgH.toNat ∧ (cleared 72).initOk = false ∧
    ∃ t, step { cleared 72 with port := [.operation 0x170000000000 []] } = .next t := ⟨by decide, rfl, _, rfl⟩

/-- A port with a drawing word, a reserved word and a font change. -/
theorem witness_StepKeepsStreamlessPort :
    (cleared 64).cfgH.toNat ≤ 64 ∧
    StreamlessPort { cleared 64 with
      port := [.operation 0x0A0007800001 [], .operation 0x190000000001 [], .installFont 1 []] } := by
  refine ⟨by decide, ?_⟩
  intro e he w stream hw i hd
  subst hw
  simp only [List.mem_cons, List.not_mem_nil, or_false, HostEvent.operation.injEq, reduceCtorEq] at he
  rcases he with ⟨rfl, rfl⟩ | ⟨rfl, rfl⟩
  · cases (show decode 0x0A0007800001 = .ok (.lineH 0 7 128 .on) by rfl).symm.trans hd
    exact ⟨rfl, rfl, fun _ _ h => Instr.noConfusion h⟩
  · cases (show decode 0x190000000001 = .error (.reservedOpcode 0x19) by rfl).symm.trans hd

end Sys2Proof.Machine
end

/-! A step executes the operation at the port (R9, R67). -/

namespace Sys2Proof.Machine

@[simp] theorem completed_next (t : State) : completed (.next t) = .next { t with stream := [] } := rfl

@[simp] theorem completed_refused (r : Refusal) : completed (.refused r) = .refused r := rfl

theorem acceptOperation_eq (stream : List Byte) (rest : List HostEvent) (s : State) :
    acceptOperation stream rest s = { s with port := rest, stream := stream } := rfl

/-- R9, R67 (1): the step of a word that decodes is its operation's execution on the accepted state, completed. -/
theorem step_of_operation {s : State} {w : OpWord} {stream : List Byte} {rest : List HostEvent} {i : Instr}
    (hport : s.port = .operation w stream :: rest) (hdecode : decode w = .ok i) :
    step s = completed (exec i { s with port := rest, stream := stream }) := by
  rw [step, hport]
  simp only [hdecode, acceptOperation_eq]

/-- Settles O11: `completed` drops the rest of the stream of an operation that goes on, and passes a refusal
through. -/
theorem stepRunsTheIssuedOperation : Obligations.StepRunsTheIssuedOperation := by
  intro s w stream rest i hport hdecode
  have hstep := step_of_operation hport hdecode
  constructor
  · intro t hexec
    rw [hstep, hexec, completed_next]
  · intro r hexec
    rw [hstep, hexec, completed_refused]

end Sys2Proof.Machine

/-! What every completed operation and every step keeps: the configuration, the invariant of every constructed
block, and the registers an operation does not write (R21 to R23, R32, R54). -/

namespace Sys2Proof.Machine

/-! ## From operations to steps -/

/-- What is kept by taking a host event and by every completed operation is kept by every step (R9, R67). -/
theorem step_keeps {P : State → Prop} (hport : ∀ s es, P s → P (s.setPort es))
    (hstream : ∀ s bs, P s → P (s.setStream bs)) (hrom : ∀ s ts, P s → P (s.setFontRom ts))
    (hexec : ∀ i s t, P s → exec i s = .next t → P t) {s t : State} (hs : P s) (h : step s = .next t) : P t := by
  obtain ⟨-, rfl⟩ | ⟨fid, rows, rest, -, rfl⟩ | ⟨-, -, rest, -, -, -, rfl⟩ |
    ⟨-, stream, rest, i, u, -, -, hu, rfl⟩ := step_next_cases h
  · exact hs
  · exact hrom _ _ (hport _ rest hs)
  · exact hport _ rest hs
  · exact hstream _ _ (hexec i _ u (hstream _ stream (hport _ rest hs)) hu)

/-! ## The configuration -/

/-- Two states have the same configuration registers (R21, R22, R23). -/
def SameConfig (s t : State) : Prop := t.cfgH = s.cfgH ∧ t.cfgCom = s.cfgCom ∧ t.cfgAddr = s.cfgAddr

theorem SameConfig.refl (s : State) : SameConfig s s := ⟨rfl, rfl, rfl⟩

theorem SameConfig.trans {s t u : State} (hst : SameConfig s t) (htu : SameConfig t u) : SameConfig s u := by
  obtain ⟨hh, hcom, haddr⟩ := hst
  obtain ⟨hh', hcom', haddr'⟩ := htu
  exact ⟨hh'.trans hh, hcom'.trans hcom, haddr'.trans haddr⟩

theorem DrawsOnly.sameConfig {s t : State} (h : DrawsOnly s t) : SameConfig s t := by
  obtain ⟨hh, hcom, haddr, -⟩ := h.fields
  exact ⟨hh, hcom, haddr⟩

theorem sameConfig_emitAll (s : State) (ts : List Tx) : SameConfig s (emitAll s ts) := by
  rw [emitAll_eq]; exact .refl s

theorem sameConfig_initBody (s : State) : SameConfig s (initBody s) := by
  rw [initBody_fields]; exact .refl s

/-- A completed operation keeps the configuration (R240). -/
theorem exec_sameConfig {i : Instr} {s t : State} (h : exec i s = .next t) : SameConfig s t := by
  obtain ⟨-, ⟨-, -, hdraw⟩ | ⟨-, rfl⟩ | ⟨-, -, rfl⟩ | ⟨x, y, -, rfl⟩ | ⟨gw, gh, glen, fid, -, -, rfl⟩ |
    ⟨-, rfl⟩ | ⟨-, rfl⟩ | ⟨-, rfl⟩⟩ := exec_next_cases h
  · exact hdraw.sameConfig
  · exact sameConfig_initBody s
  · exact sameConfig_emitAll s _
  all_goals exact .refl s

theorem step_sameConfig {s t : State} (h : step s = .next t) : SameConfig s t :=
  step_keeps (P := SameConfig s) (fun _ _ hs => hs) (fun _ _ hs => hs) (fun _ _ hs => hs)
    (fun _ _ _ hs hexec => hs.trans (exec_sameConfig hexec)) (.refl s) h

/-- Settles O43, by the cases of a completed operation, carried to the step. -/
theorem configurationRegistersNeverChange : Obligations.ConfigurationRegistersNeverChange :=
  ⟨fun _ _ _ h => exec_sameConfig h, fun _ _ h => step_sameConfig h⟩

/-! ## The invariant of a constructed block -/

/-- `ERR` is 0 after a construction of height up to 64 (R241). -/
theorem errAfterConstruction_eq_zero {h : Byte} (hheight : h.toNat ≤ 64) : errAfterConstruction h = 0 :=
  if_neg (Nat.not_lt.mpr hheight)

/-- DEFAULT_FONT is valid by its width (R26). -/
theorem defaultFont_gw_le : defaultFont.gw.toNat ≤ 16 := by
  have hlt := Config.defaultFontWidth.isLt
  simp only [defaultFont, BitVec.toNat_ofNat]
  omega

/-- A block constructed with a legal height meets the invariant (R34, R241). -/
theorem constructed_inv {h : Byte} (com : ComPins) (addr : Byte) (hpos : h.toNat ≠ 0) (hmul : h.toNat % 8 = 0) :
    Inv (State.constructed h com addr) where
  height_pos := Nat.pos_of_ne_zero hpos
  height_mul := hmul
  fb_wf := wf_drawnFb _
  fb_below := below_drawnFb _
  font_width := defaultFont_gw_le
  config_error := fun _ => rfl
  log_addr := by simp [State.constructed]
  log_data := by simp [State.constructed]

/-- Settles O3: a construction that is not refused has a legal height. -/
theorem constructionEstablishesInvariant : Obligations.ConstructionEstablishesInvariant := by
  refine ⟨constructed_inv _ _ (by decide) (by decide), fun h com addr t hc => ?_⟩
  obtain ⟨hpos, hmul, rfl⟩ := construct_next hc
  exact constructed_inv _ _ hpos hmul

/-- Settles O2: 64 is a legal height, and not above 64. -/
theorem resetIsConstructionAtHeight64 : Obligations.ResetIsConstructionAtHeight64 := by
  have herr : State.reset.err = 0 := errAfterConstruction_eq_zero (h := 64) (by decide)
  exact ⟨construct_legal 64 none none (by decide) (by decide), rfl, rfl, rfl, rfl, rfl, rfl, herr, rfl, rfl, rfl⟩

/-! ## The invariant over an operation and a step -/

/-- The invariant speaks of these registers alone. -/
theorem Inv.congr {s t : State} (hs : Inv s) (hh : t.cfgH = s.cfgH) (haddr : t.cfgAddr = s.cfgAddr)
    (hfb : t.fb = s.fb) (hfont : t.font = s.font) (hok : t.initOk = s.initOk) (hlog : t.log = s.log) : Inv t where
  height_pos := hh ▸ hs.height_pos
  height_mul := hh ▸ hs.height_mul
  fb_wf := hfb ▸ hs.fb_wf
  fb_below := by rw [hfb, hh]; exact hs.fb_below
  font_width := hfont ▸ hs.font_width
  config_error := by rw [hh, hok]; exact hs.config_error
  log_addr := by rw [hlog, haddr]; exact hs.log_addr
  log_data := by rw [hlog, hh]; exact hs.log_data

theorem inv_setFb {s : State} {m : Memory} (hs : Inv s) (hwf : m.wf = true)
    (hbelow : m.below (16 * s.cfgH.toNat) = true) : Inv (s.setFb m) :=
  { hs with fb_wf := hwf, fb_below := hbelow }

theorem inv_setFont {s : State} {f : FontDesc} (hs : Inv s) (hw : f.gw.toNat ≤ 16) : Inv (s.setFont f) :=
  { hs with font_width := hw }

theorem inv_setInitOk {s : State} {b : Bool} (hs : Inv s) (hb : 64 < s.cfgH.toNat → b = false) :
    Inv (s.setInitOk b) :=
  { hs with config_error := hb }

/-- Drawing keeps the framebuffer canonical and within `0 .. N-1` (R54): both are kept by PB_SET calls and by
whole-buffer writes. -/
theorem DrawsOnly.inv {s t : State} (h : DrawsOnly s t) (hs : Inv s) : Inv t := by
  have hwf : t.fb.wf = true :=
    h.keeps (fun m => m.wf = true) (fun _ ps => wf_plot s.cfgH ps) (fun _ bs _ => Memory.wf_load bs) hs.fb_wf
  have hbelow : t.fb.below (16 * s.cfgH.toNat) = true :=
    h.keeps (fun m => m.below (16 * s.cfgH.toNat) = true) (fun _ ps => below_plot ps hs.height_mul)
      (fun _ bs hlen hm => Memory.below_load bs hm hlen) hs.fb_below
  rw [h.frame]
  exact (inv_setFb hs hwf hbelow).congr rfl rfl rfl rfl rfl rfl

/-- A script whose data blocks are `N` bytes keeps the invariant (R71). -/
theorem inv_emitAll {s : State} {ts : List Tx} (hs : Inv s)
    (hdata : ∀ bs, Tx.data bs ∈ ts → bs.length = 16 * s.cfgH.toNat) : Inv (emitAll s ts) := by
  rw [emitAll_eq]
  refine { hs with log_addr := fun e he => ?_, log_data := fun e he bs hbs => ?_ }
  · rcases List.mem_append.mp he with hold | hnew
    · exact hs.log_addr e hold
    · exact (answered_addr hnew : e.addr = s.cfgAddr)
  · rcases List.mem_append.mp he with hold | hnew
    · exact hs.log_data e hold bs hbs
    · have htx : e.tx ∈ ts := answered_tx s ts ▸ List.mem_map_of_mem hnew
      exact hdata bs (hbs ▸ htx)

/-- Every data block of an operation's script is `N` bytes (R71, R163, R167). -/
theorem length_of_data_mem_scriptOf {i : Instr} {s : State} {bs : List Byte} (h : Tx.data bs ∈ scriptOf i s) :
    bs.length = 16 * s.cfgH.toNat := by
  cases i with
  | init =>
    have hbs : bs = List.replicate (16 * s.cfgH.toNat) 0 := by simpa [scriptOf] using h
    rw [hbs, List.length_replicate]
  | update =>
    have hbs : bs = s.fb.bytes (16 * s.cfgH.toNat) := by simpa [scriptOf] using h
    rw [hbs, Memory.bytes_length]
  | _ => simp [scriptOf] at h

/-- INIT keeps the invariant: it completes only up to height 64, so it may set `INIT_OK` (R164, R250). -/
theorem inv_initBody {s : State} (hs : Inv s) (hheight : s.cfgH.toNat ≤ 64) : Inv (initBody s) := by
  rw [initBody_eq]
  have hfill : Inv (s.pbFill .off) := (drawsOnly_pbFill s .off).inv hs
  refine inv_setInitOk (inv_emitAll hfill fun _ => length_of_data_mem_scriptOf) fun hgt => ?_
  rw [emitAll_cfgH] at hgt
  exact absurd hgt (Nat.not_lt.mpr hheight)

theorem exec_inv {i : Instr} {s t : State} (hs : Inv s) (h : exec i s = .next t) : Inv t := by
  obtain ⟨hgate, ⟨-, -, hdraw⟩ | ⟨rfl, rfl⟩ | ⟨-, -, rfl⟩ | ⟨x, y, -, rfl⟩ | ⟨gw, gh, glen, fid, -, hgw, rfl⟩ |
    ⟨-, rfl⟩ | ⟨-, rfl⟩ | ⟨-, rfl⟩⟩ := exec_next_cases h
  · exact hdraw.inv hs
  · exact inv_initBody hs (hgate rfl)
  · exact inv_emitAll hs fun _ => length_of_data_mem_scriptOf
  · exact hs.congr rfl rfl rfl rfl rfl rfl
  · exact inv_setFont hs hgw
  all_goals exact hs.congr rfl rfl rfl rfl rfl rfl

/-- Settles O47: every completed operation keeps the invariant, and taking a host event touches none of its
registers. -/
theorem stepKeepsInvariant : Obligations.StepKeepsInvariant := by
  intro s t hs h
  exact step_keeps (P := Inv) (fun _ _ hu => hu.congr rfl rfl rfl rfl rfl rfl)
    (fun _ _ hu => hu.congr rfl rfl rfl rfl rfl rfl) (fun _ _ hu => hu.congr rfl rfl rfl rfl rfl rfl)
    (fun _ _ _ => exec_inv) hs h

/-! ## Who writes which register -/

/-- The operations on the framebuffer other than the characters keep `CX` (R32). -/
theorem exec_cx_of_touchesFb {i : Instr} {s t : State} (h : exec i s = .next t) (htouch : touchesFb i = true)
    (hchar : ∀ ch c, i ≠ .writeChar ch c) (hstring : i ≠ .writeString) (hstringInv : i ≠ .writeStringInv) :
    t.cx = s.cx := by
  cases i with
  | init => obtain ⟨-, h⟩ := fbGate_next h; cases h; rw [initBody_fields]
  | update => obtain ⟨-, h⟩ := fbGate_next h; cases h; rw [updateBody_eq, emitAll_eq]
  | drawImage | waveform =>
    obtain ⟨-, h⟩ := fbGate_next h
    obtain ⟨-, rfl⟩ := ite_refused_next h
    rfl
  | clean | fill | drawPixel | lineH | lineV | rect => obtain ⟨-, h⟩ := fbGate_next h; cases h; rfl
  | writeChar ch c => exact absurd rfl (hchar ch c)
  | writeString => exact absurd rfl hstring
  | writeStringInv => exact absurd rfl hstringInv
  | _ => cases htouch

/-- Settles O45, case by case of a completed operation: drawing writes the framebuffer and `CX` at most, a
script of transactions none of these registers, and each other operation the one register it names. -/
theorem whoWritesWhichRegister : Obligations.WhoWritesWhichRegister := by
  intro i s t h
  obtain ⟨-, ⟨hscript, htouch, hdraw⟩ | ⟨rfl, rfl⟩ | ⟨-, -, rfl⟩ | ⟨x, y, rfl, rfl⟩ |
    ⟨gw, gh, glen, fid, rfl, -, rfl⟩ | ⟨rfl, rfl⟩ | ⟨rfl, rfl⟩ | ⟨rfl, rfl⟩⟩ := exec_next_cases h
  · obtain ⟨-, -, -, hcy, hfont, -, -, hport, hrom, -, -, hresults⟩ := hdraw.fields
    refine ⟨fun _ _ => hresults, fun _ => hcy, fun _ => exec_cx_of_touchesFb h htouch, fun _ => hfont, ?_, hport, hrom⟩
    rintro (hno | rfl)
    · exact absurd (htouch.symm.trans hno) (by decide)
    · simp [scriptOf] at hscript
  · rw [initBody_fields]
    exact ⟨fun _ _ => rfl, fun _ => rfl, fun _ _ _ _ => rfl, fun _ => rfl, by simp [touchesFb], rfl, rfl⟩
  · rw [emitAll_eq]
    exact ⟨fun _ _ => rfl, fun _ => rfl, fun _ _ _ _ => rfl, fun _ => rfl, fun _ => rfl, rfl, rfl⟩
  · exact ⟨fun _ _ => rfl, fun hne => absurd rfl (hne x y), fun hne => absurd rfl (hne x y), fun _ => rfl,
      fun _ => rfl, rfl, rfl⟩
  · exact ⟨fun _ _ => rfl, fun _ => rfl, fun _ _ _ _ => rfl, fun hne => absurd rfl (hne gw gh glen fid),
      fun _ => rfl, rfl, rfl⟩
  · exact ⟨fun hne => absurd rfl hne, fun _ => rfl, fun _ _ _ _ => rfl, fun _ => rfl, fun _ => rfl, rfl, rfl⟩
  · exact ⟨fun _ hne => absurd rfl hne, fun _ => rfl, fun _ _ _ _ => rfl, fun _ => rfl, fun _ => rfl, rfl, rfl⟩
  · exact ⟨fun _ _ => rfl, fun _ => rfl, fun _ _ _ _ => rfl, fun _ => rfl, fun _ => rfl, rfl, rfl⟩

/-! ## A string the font store cannot answer -/

/-- In either colour, a string with a character the store cannot answer is refused (R226 (6)). -/
theorem writeStream_unanswered {s : State} {chars rest : List Byte} {ch : Byte} (c : Colour)
    (hzero : (0x00 : Byte) ∉ chars) (hstream : s.stream = chars ++ 0x00 :: rest) (hch : ch ∈ chars)
    (hno : ¬ GlyphAnswered s ch) : writeStream c s = .refused .fontUnanswered := by
  have hsplit : splitString s.stream = some (chars, rest) := splitString_eq_some.mpr ⟨hzero, hstream⟩
  have hany : chars.any (glyphUnanswered s) = true :=
    List.any_eq_true.mpr ⟨ch, hch, by rwa [← Bool.not_eq_false, glyphUnanswered_eq_false]⟩
  simp only [writeStream, hsplit, hany, if_true]

/-- Settles O31: up to height 64 both string writes are the loop, in one colour each (R136, R137). -/
theorem unansweredStringIsRefused : Obligations.UnansweredStringIsRefused := by
  rintro s i (rfl | rfl) hheight chars rest ch hzero hstream hch hno
  · exact (fbGate_le _ hheight).trans (writeStream_unanswered .on hzero hstream hch hno)
  · exact (fbGate_le _ hheight).trans (writeStream_unanswered .off hzero hstream hch hno)

end Sys2Proof.Machine

/-! A step without an operation, the framebuffer's addressing, and the operations that read the stream or draw a
box: what each changes, byte by byte or pixel by pixel (R41 to R57, R94, R114, R115, R136). -/

namespace Sys2Proof.Machine

/-! ## A step without an operation -/

theorem step_of_idle {s : State} (hport : s.port = []) : step s = .next s := by
  simp only [step, hport, idle]

theorem acceptFont_eq (fid : Byte) (rows : List HalfWord) (rest : List HostEvent) (s : State) :
    acceptFont fid rows rest s = { s with port := rest, fontRom := { fid := fid, rows := rows } :: s.fontRom } := rfl

theorem step_of_installFont {s : State} {fid : Byte} {rows : List HalfWord} {rest : List HostEvent}
    (hport : s.port = .installFont fid rows :: rest) :
    step s = .next { s with port := rest, fontRom := { fid := fid, rows := rows } :: s.fontRom } := by
  simp only [step, hport, acceptFont_eq]

/-- The newest table of a font answers with its own words and past them not at all (R57, log 5). -/
theorem fontRead_cons_self (t : FontTable) (rom : List FontTable) (k : Nat) :
    fontRead (t :: rom) t.fid k = t.rows[k]? := by
  simp [fontRead, fontTable]

theorem fontRead_cons_of_ne {t : FontTable} {fid : Byte} (rom : List FontTable) (k : Nat) (hne : fid ≠ t.fid) :
    fontRead (t :: rom) fid k = fontRead rom fid k := by
  simp [fontRead, fontTable, hne.symm]

/-- Settles O13: a font change puts its table before the listed ones, where the reads of that font find it. -/
theorem stepWithoutOperation : Obligations.StepWithoutOperation :=
  ⟨fun _ hport => step_of_idle hport, fun s fid rows _ hport =>
    ⟨_, step_of_installFont hport, rfl, fontRead_cons_self ⟨fid, rows⟩ s.fontRom,
      fun _ k hne => fontRead_cons_of_ne (t := ⟨fid, rows⟩) s.fontRom k hne⟩⟩

/-! ## Framebuffer addressing -/

/-- Distinct in-bounds coordinates address distinct (byte, bit) pairs: the column is the byte's address modulo
128, the row is 8 times its page and the bit (R43). -/
theorem eq_of_fbIndex_fbBit_eq {h x y x' y' : Byte} (hb : inb h x y = true) (hb' : inb h x' y' = true)
    (hidx : fbIndex x y = fbIndex x' y') (hbit : fbBit y = fbBit y') : x = x' ∧ y = y' := by
  rw [inb_iff] at hb hb'
  simp only [fbIndex, fbBit, width] at hidx hbit
  exact ⟨BitVec.eq_of_toNat_eq (by omega), BitVec.eq_of_toNat_eq (by omega)⟩

/-- The inverse map of R43: bit `k` of byte `a` is the pixel of column `a mod 128` and row `8 (a div 128) + k`. -/
theorem exists_pixel_of_bit {h : Byte} (hm : h.toNat % 8 = 0) {a k : Nat} (ha : a < 16 * h.toNat) (hk : k < 8) :
    ∃ x y, inb h x y = true ∧ fbIndex x y = a ∧ fbBit y = k ∧ x.toNat = a % 128 ∧ y.toNat = 8 * (a / 128) + k := by
  have hx : (BitVec.ofNat 8 (a % 128)).toNat = a % 128 := by rw [BitVec.toNat_ofNat]; omega
  have hy : (BitVec.ofNat 8 (8 * (a / 128) + k)).toNat = 8 * (a / 128) + k := by
    have hlt := h.isLt
    rw [BitVec.toNat_ofNat]; omega
  refine ⟨BitVec.ofNat 8 (a % 128), BitVec.ofNat 8 (8 * (a / 128) + k), ?_, ?_, ?_, hx, hy⟩
  · rw [inb_iff, hx, hy]; omega
  · rw [fbIndex, width, hx, hy]; omega
  · rw [fbBit, hy]; omega

/-- Settles O14: the range, the injectivity and the inverse map of R43. -/
theorem pixelAddressingIsABijection : Obligations.PixelAddressingIsABijection := fun _ hm =>
  ⟨fun _ y hb => ⟨fbIndex_lt hm hb, fbBit_lt y⟩, fun _ _ _ _ => eq_of_fbIndex_fbBit_eq,
    fun _ _ => exists_pixel_of_bit hm⟩

/-! ## DRAW_IMAGE -/

/-- A byte of the loaded image is the stream byte of its number (R94). -/
theorem read_loadImage_lt {s : State} {i : Nat} (hlen : 16 * s.cfgH.toNat ≤ s.stream.length)
    (hi : i < 16 * s.cfgH.toNat) : s.stream[i]? = some (s.loadImage.fb.read i) := by
  have htake : i < (s.stream.take (fbSize s.cfgH)).length := by rw [List.length_take, fbSize]; omega
  have hread : s.loadImage.fb.read i = (s.stream.take (fbSize s.cfgH))[i] := Memory.read_load_lt _ _ _ htake
  rw [hread, List.getElem_take, List.getElem?_eq_getElem]

theorem read_loadImage_ge {s : State} {a : Nat} (hw : s.fb.wf = true) (ha : 16 * s.cfgH.toNat ≤ a) :
    s.loadImage.fb.read a = s.fb.read a :=
  Memory.read_load_ge _ a hw ((List.length_take_le ..).trans ha)

/-- Settles O18: the loaded state is the outcome of a stream long enough. -/
theorem drawImageCopiesTheStream : Obligations.DrawImageCopiesTheStream := by
  intro s hheight hw
  constructor
  · intro hlen
    have hexec : exec .drawImage s = .next s.loadImage := (fbGate_le _ hheight).trans (if_neg (Nat.not_lt.mpr hlen))
    exact ⟨s.loadImage, hexec, rfl, fun _ => read_loadImage_lt hlen, fun _ => read_loadImage_ge hw⟩
  · intro hshort
    exact (fbGate_le _ hheight).trans (if_pos hshort)

/-! ## WAVEFORM -/

theorem colour_of_mem_waveformPixels {x y : Byte} {c : Colour} {smps : List Byte} {j : Nat} {p : Pixel}
    (hp : p ∈ waveformPixels x y c j smps) : p.c = c := by
  obtain ⟨i, smp, -, rfl⟩ := (mem_waveformPixels x y c smps j p).mp hp
  rfl

/-- The first `n` stream bytes are the samples 0 to `n - 1` (R50). -/
theorem mem_waveformPixels_take {x y n : Byte} {c : Colour} {bs : List Byte} {p : Pixel} :
    p ∈ waveformPixels x y c 0 (bs.take n.toNat) ↔
      ∃ i smp, i < n.toNat ∧ bs[i]? = some smp ∧ p = ⟨x + BitVec.ofNat 8 i, y - smp, c⟩ := by
  simp only [mem_waveformPixels, Nat.zero_add, List.getElem?_take, Option.ite_none_right_eq_some, and_assoc]

/-- WAVEFORM's samples draw exactly their pixels (R115, R117). -/
theorem drawnExactly_plotSamples {s : State} (hw : s.fb.wf = true) (x y n : Byte) (c : Colour) :
    DrawnExactly c (fun a k => ∃ i smp, i < n.toNat ∧ s.stream[i]? = some smp ∧
      PlotsTo s.cfgH (x + BitVec.ofNat 8 i) (y - smp) a k) s.fb (s.plotSamples x y n c).fb := by
  refine drawnExactly_congr (fun a k => ?_)
    (plot_drawnExactly s.cfgH (waveformPixels x y c 0 (s.stream.take n.toNat)) hw c
      fun _ => colour_of_mem_waveformPixels)
  constructor
  · rintro ⟨p, hp, hplots⟩
    obtain ⟨i, smp, hi, hsmp, rfl⟩ := mem_waveformPixels_take.mp hp
    exact ⟨i, smp, hi, hsmp, hplots⟩
  · rintro ⟨i, smp, hi, hsmp, hplots⟩
    exact ⟨_, mem_waveformPixels_take.mpr ⟨i, smp, hi, hsmp, rfl⟩, hplots⟩

/-- Settles O26: the state with its samples plotted is the outcome of a stream long enough. -/
theorem waveformDrawsItsSamples : Obligations.WaveformDrawsItsSamples := by
  intro s x y n c hheight hw
  constructor
  · intro hlen
    have hexec : exec (.waveform x y n c) s = .next (s.plotSamples x y n c) :=
      (fbGate_le _ hheight).trans (if_neg (Nat.not_lt.mpr hlen))
    exact ⟨s.plotSamples x y n c, hexec, rfl, drawnExactly_plotSamples hw x y n c⟩
  · intro hshort
    exact (fbGate_le _ hheight).trans (if_pos hshort)

/-! ## RECT with ordered corners -/

/-- The row of a LINE_H, by wrapping distance (R112). -/
theorem mem_lineHPixels_distance {x y len : Byte} {c : Colour} {p : Pixel} :
    p ∈ lineHPixels x y len c ↔ p.c = c ∧ p.y = y ∧ (p.x - x).toNat < len.toNat := by
  rw [mem_lineHPixels, distance_lt]
  constructor
  · rintro ⟨i, hi, rfl⟩; exact ⟨rfl, rfl, i, hi, rfl⟩
  · rintro ⟨hc, hy, i, hi, hx⟩; exact ⟨i, hi, by rw [← hc, ← hy, hx]⟩

/-- The column of a LINE_V, by wrapping distance (R113). -/
theorem mem_lineVPixels_distance {x y len : Byte} {c : Colour} {p : Pixel} :
    p ∈ lineVPixels x y len c ↔ p.c = c ∧ p.x = x ∧ (p.y - y).toNat < len.toNat := by
  rw [mem_lineVPixels, distance_lt]
  constructor
  · rintro ⟨i, hi, rfl⟩; exact ⟨rfl, rfl, i, hi, rfl⟩
  · rintro ⟨hc, hx, i, hi, hy⟩; exact ⟨i, hi, by rw [← hc, ← hx, hy]⟩

/-- The pixels of RECT's four sides (R114). -/
theorem mem_rectPixels {x1 y1 x2 y2 : Byte} {c : Colour} {p : Pixel} :
    p ∈ rectPixels x1 y1 x2 y2 c ↔ p.c = c ∧
      (((p.y = y1 ∨ p.y = y2) ∧ (p.x - x1).toNat < (x2 - x1 + 1).toNat) ∨
       ((p.x = x1 ∨ p.x = x2) ∧ (p.y - y1).toNat < (y2 - y1 + 1).toNat)) := by
  simp only [rectPixels, List.mem_append, mem_lineHPixels_distance, mem_lineVPixels_distance, sideLength]
  tauto

/-- Between ordered corners whose side does not wrap, wrapping distance is the plain order. -/
theorem distance_lt_side_iff {a b x : Byte} (hab : a.toNat ≤ b.toNat) (hside : b.toNat < a.toNat + 255) :
    (x - a).toNat < (b - a + 1).toNat ↔ a.toNat ≤ x.toNat ∧ x.toNat ≤ b.toNat := by
  bv_omega

/-- The pixels of RECT with ordered corners are the border of the box. -/
theorem mem_rectPixels_ordered {x1 y1 x2 y2 x y : Byte} {c : Colour} (hx : x1.toNat ≤ x2.toNat)
    (hy : y1.toNat ≤ y2.toNat) (hx' : x2.toNat < x1.toNat + 255) (hy' : y2.toNat < y1.toNat + 255) :
    ⟨x, y, c⟩ ∈ rectPixels x1 y1 x2 y2 c ↔
      x1.toNat ≤ x.toNat ∧ x.toNat ≤ x2.toNat ∧ y1.toNat ≤ y.toNat ∧ y.toNat ≤ y2.toNat ∧
        (x.toNat = x1.toNat ∨ x.toNat = x2.toNat ∨ y.toNat = y1.toNat ∨ y.toNat = y2.toNat) := by
  rw [mem_rectPixels, distance_lt_side_iff hx hx', distance_lt_side_iff hy hy']
  simp only [← BitVec.toNat_inj, true_and]
  omega

/-- A visible pixel after a primitive in one colour: in that colour where a call names it, else as before
(R110, R117). -/
theorem pixelOn_plot {h : Byte} {m : Memory} {ps : List Pixel} {c : Colour} (hw : m.wf = true)
    (hc : ∀ p ∈ ps, p.c = c) {x y : Byte} (hb : inb h x y = true) :
    (⟨x, y, c⟩ ∈ ps → pixelOn (plot h m ps) x.toNat y.toNat = isOn c) ∧
    (⟨x, y, c⟩ ∉ ps → pixelOn (plot h m ps) x.toNat y.toNat = pixelOn m x.toNat y.toNat) := by
  obtain ⟨hdrawn, hkept⟩ := plot_drawnExactly h ps hw c hc (fbIndex x y) (fbBit y) (fbBit_lt y)
  refine ⟨fun hmem => hdrawn ⟨_, hmem, hb, rfl, rfl⟩, fun hmem => hkept ?_⟩
  rintro ⟨⟨x', y', c'⟩, hp, hb', hidx, hbit⟩
  obtain ⟨rfl, rfl⟩ := eq_of_fbIndex_fbBit_eq hb' hb hidx hbit
  obtain rfl : c' = c := hc _ hp
  exact hmem hp

/-- A number below 256 is a byte's value. -/
theorem exists_byte_of_lt {n : Nat} (hn : n < 256) : ∃ b : Byte, b.toNat = n :=
  ⟨BitVec.ofNat 8 n, by rw [BitVec.toNat_ofNat]; omega⟩

/-- Settles O25: RECT plots its four sides, which are the border of the box. -/
theorem orderedRectIsTheBorder : Obligations.OrderedRectIsTheBorder := by
  intro s t x1 y1 x2 y2 c hw hx hy hx' hy' hexec x y hxw hyh
  obtain ⟨-, hnext⟩ := fbGate_next hexec
  cases hnext
  have hlt := s.cfgH.isLt
  obtain ⟨px, rfl⟩ := exists_byte_of_lt (n := x) (by omega)
  obtain ⟨py, rfl⟩ := exists_byte_of_lt (n := y) (by omega)
  rw [← mem_rectPixels_ordered (c := c) hx hy hx' hy']
  exact pixelOn_plot hw (fun _ hp => (mem_rectPixels.mp hp).1) ((inb_iff _ _ _).mpr ⟨hxw, hyh⟩)

/-! ## String writes -/

theorem writeStream_unterminated {s : State} (c : Colour) (hzero : (0x00 : Byte) ∉ s.stream) :
    writeStream c s = .refused .stringUnterminated := by
  simp only [writeStream, splitString_eq_none.mpr hzero]

/-- An answered string is rendered and its terminator read (R51, R136). -/
theorem writeStream_answered {s : State} {chars rest : List Byte} (c : Colour) (hzero : (0x00 : Byte) ∉ chars)
    (hstream : s.stream = chars ++ 0x00 :: rest) (hanswered : ∀ ch ∈ chars, GlyphAnswered s ch) :
    writeStream c s = .next ((chars.foldl (renderChar c) s).setStream rest) := by
  have hsplit : splitString s.stream = some (chars, rest) := splitString_eq_some.mpr ⟨hzero, hstream⟩
  have hany : chars.any (glyphUnanswered s) = false :=
    List.any_eq_false.mpr fun ch hch => by simp [glyphUnanswered_eq_false.mpr (hanswered ch hch)]
  simp only [writeStream, hsplit, hany, Bool.false_eq_true, if_false]

/-- In either colour, an answered string is the WRITE_CHAR operations of its characters, then the terminator
read (R136, R137). -/
theorem writeStream_eq_writeChars {s : State} {chars rest : List Byte} (c : Colour) (hheight : s.cfgH.toNat ≤ 64)
    (hzero : (0x00 : Byte) ∉ chars) (hstream : s.stream = chars ++ 0x00 :: rest)
    (hanswered : ∀ ch ∈ chars, GlyphAnswered s ch) :
    ∃ u, execAll (chars.map fun ch => .writeChar ch c) s = .next u ∧
      fbGate s (writeStream c s) = .next { u with stream := rest } ∧ u = { s with fb := u.fb, cx := u.cx } ∧
      u.cx = s.cx + BitVec.ofNat 8 (s.font.gw.toNat *
        (chars.filter fun ch => glyphEncoded ch s.font.gh s.font.glen).length) := by
  refine ⟨chars.foldl (renderChar c) s, execAll_writeChar c chars s hheight hanswered,
    (fbGate_le _ hheight).trans (writeStream_answered c hzero hstream hanswered), ?_, renderChars_cx c chars s⟩
  obtain ⟨m, x, hframe⟩ := renderChars_frame c chars s
  rw [hframe]

/-- Settles O30: the two string writes are one loop, in colour ON and in colour OFF. -/
theorem stringWritesEachCharacter : Obligations.StringWritesEachCharacter := by
  constructor
  · intro s hheight hzero
    exact ⟨(fbGate_le _ hheight).trans (writeStream_unterminated .on hzero),
      (fbGate_le _ hheight).trans (writeStream_unterminated .off hzero)⟩
  · intro s chars rest hheight hzero hstream hanswered p hp
    rcases List.mem_pair.mp hp with rfl | rfl
    · exact writeStream_eq_writeChars .on hheight hzero hstream hanswered
    · exact writeStream_eq_writeChars .off hheight hzero hstream hanswered

end Sys2Proof.Machine


/-! The operation word: an operation is its opcode with operands read from the fields its format uses, and from
nothing else (R60 to R66). -/

namespace Sys2Proof

/-! ## An operation's row, with the operands of a word -/

/-- The colour in bit 0 of field `E` (R62). -/
def colourOf (e : Byte) : Colour := if e.getLsbD 0 then .on else .off

/-- The operation of `i`'s row of the opcode map with the operands that the fields `A` to `E` hold (R61, R62);
`i`'s own operands are not used. -/
def Instr.withFields (i : Instr) (a b c d e : Byte) : Instr :=
  match i with
  | .init => .init
  | .update => .update
  | .clean => .clean
  | .fill _ => .fill (colourOf e)
  | .setCursor _ _ => .setCursor a b
  | .writeString => .writeString
  | .writeStringInv => .writeStringInv
  | .drawPixel _ _ _ => .drawPixel a b (colourOf e)
  | .drawImage => .drawImage
  | .lineH _ _ _ _ => .lineH a b c (colourOf e)
  | .lineV _ _ _ _ => .lineV a b c (colourOf e)
  | .rect _ _ _ _ _ => .rect a b c d (colourOf e)
  | .waveform _ _ _ _ => .waveform a b c (colourOf e)
  | .displayOff => .displayOff
  | .displayOn => .displayOn
  | .setBrightness _ => .setBrightness a
  | .invert _ => .invert (e.getLsbD 0)
  | .flip _ => .flip (e.getLsbD 0)
  | .mirror _ => .mirror (e.getLsbD 0)
  | .setFont _ _ _ _ => .setFont a b (c ++ d) e
  | .isInitialized => .isInitialized
  | .getLastError => .getLastError
  | .clearErrors => .clearErrors
  | .writeChar _ _ => .writeChar a (colourOf e)

/-- The same with the operands of a word. -/
def Instr.withOperands (i : Instr) (w : OpWord) : Instr :=
  i.withFields (fieldA w) (fieldB w) (fieldC w) (fieldD w) (fieldE w)

theorem withOperands_packWord (i : Instr) (opc a b c d e : Byte) :
    i.withOperands (packWord opc a b c d e) = i.withFields a b c d e := by
  simp only [Instr.withOperands, fieldA_packWord, fieldB_packWord, fieldC_packWord, fieldD_packWord, fieldE_packWord]

theorem opcodeOf_withOperands (i : Instr) (w : OpWord) : opcodeOf (i.withOperands w) = opcodeOf i := by
  cases i <;> rfl

theorem withOperands_withOperands (i : Instr) (w : OpWord) : (i.withOperands w).withOperands w = i.withOperands w := by
  cases i <;> rfl

/-! ## Decoding by opcode -/

theorem fieldK_packWord (opc a b c d e : Byte) : fieldK (packWord opc a b c d e) = colourOf e := by
  rw [fieldK, fieldV_packWord]; rfl

/-- Every row of the opcode map (R62, R63). -/
theorem decode_packWord (i : Instr) (a b c d e : Byte) :
    decode (packWord (opcodeOf i) a b c d e) = .ok (i.withFields a b c d e) := by
  cases i <;> simp [decode, opcodeOf, Instr.withFields, fieldK_packWord]

theorem decode_of_opcode {i : Instr} {w : OpWord} (h : fieldOPC w = opcodeOf i) :
    decode w = .ok (i.withOperands w) := by
  have hdecode := decode_packWord i (fieldA w) (fieldB w) (fieldC w) (fieldD w) (fieldE w)
  rwa [← h, packWord_fields] at hdecode

/-- A reserved opcode is refused by name (R65). -/
theorem decode_of_reserved {w : OpWord} (h : (fieldOPC w).toNat = 0 ∨ 0x19 ≤ (fieldOPC w).toNat) :
    decode w = .error (.reservedOpcode (fieldOPC w)) := by
  have hne (o : Byte) (hlow : 1 ≤ o.toNat) (hhigh : o.toNat ≤ 0x18) : fieldOPC w ≠ o := by
    rintro rfl
    omega
  unfold decode
  iterate 24 rw [if_neg (hne _ (by decide) (by decide))]

/-- One operation of each row of the opcode map. -/
def rowOperations : List Instr :=
  [.init, .update, .clean, .fill .off, .setCursor 0 0, .writeString, .writeStringInv, .drawPixel 0 0 .off, .drawImage,
   .lineH 0 0 0 .off, .lineV 0 0 0 .off, .rect 0 0 0 0 .off, .waveform 0 0 0 .off, .displayOff, .displayOn,
   .setBrightness 0, .invert false, .flip false, .mirror false, .setFont 0 0 0 0, .isInitialized, .getLastError,
   .clearErrors, .writeChar 0 .off]

/-- Every opcode is reserved or that of a row (R63, R65). -/
theorem opcode_reserved_or_row : ∀ o : Byte, (o.toNat = 0 ∨ 0x19 ≤ o.toNat) ∨ ∃ i ∈ rowOperations, opcodeOf i = o := by
  decide

theorem exists_row {o : Byte} (hlow : 1 ≤ o.toNat) (hhigh : o.toNat ≤ 0x18) : ∃ i, opcodeOf i = o := by
  obtain hreserved | ⟨i, -, hi⟩ := opcode_reserved_or_row o
  · omega
  · exact ⟨i, hi⟩

/-- A word is an operation iff it has its opcode and its operands. -/
theorem decode_eq_ok_iff {w : OpWord} {i : Instr} :
    decode w = .ok i ↔ fieldOPC w = opcodeOf i ∧ i.withOperands w = i := by
  constructor
  · intro h
    obtain hreserved | ⟨j, -, hj⟩ := opcode_reserved_or_row (fieldOPC w)
    · rw [decode_of_reserved hreserved] at h
      cases h
    · rw [decode_of_opcode hj.symm] at h
      cases h
      exact ⟨hj.symm.trans (opcodeOf_withOperands j w).symm, withOperands_withOperands j w⟩
  · rintro ⟨hopc, hi⟩
    rw [decode_of_opcode hopc, hi]

/-! ## Encoding -/

theorem fieldOPC_encode (i : Instr) : fieldOPC (encode i) = opcodeOf i := by
  cases i <;> exact fieldOPC_packWord ..

@[simp] theorem colourOf_colourByte (c : Colour) : colourOf (colourByte c) = c := by cases c <;> rfl

/-- Encoding drops no bit of an operand (R61, R62). -/
theorem withOperands_encode (i : Instr) : i.withOperands (encode i) = i := by
  cases i <;> simp [encode, withOperands_packWord, Instr.withFields]

/-- Settles O8: an encoded operation has its opcode and its operands. -/
theorem decodeOfEncode : Obligations.DecodeOfEncode := fun i =>
  decode_eq_ok_iff.mpr ⟨fieldOPC_encode i, withOperands_encode i⟩

/-! ## The ignored bits -/

/-- A field the format uses whole (R61). -/
theorem and_ff (b : Byte) : b &&& 255#8 = b := BitVec.and_allOnes

theorem boolByte_eq_and_one (e : Byte) : boolByte e[0] = e &&& 1#8 := (and_one_boolByte e).symm

theorem colourByte_colourOf (e : Byte) : colourByte (colourOf e) = e &&& 1#8 := (and_one_colourByte e).symm

theorem colourOf_and_one (e : Byte) : colourOf (e &&& 1#8) = colourOf e := by simp [colourOf]

/-- Encoding an operation with a word's operands gives the word's used bits (R61, R64). -/
theorem encode_withFields (i : Instr) (a b c d e : Byte) :
    encode (i.withFields a b c d e) = packWord (opcodeOf i) a b c d e &&& formatMask (formatOf i) := by
  cases i <;>
    simp [encode, Instr.withFields, opcodeOf, formatOf, formatMask_fields, packWord_and, and_ff,
      boolByte_eq_and_one, colourByte_colourOf]

theorem fieldOPC_and_formatMask (w : OpWord) (fmt : Format) : fieldOPC (w &&& formatMask fmt) = fieldOPC w := by
  rw [← packWord_fields w]
  cases fmt <;> simp [formatMask_fields, packWord_and, fieldOPC_packWord, and_ff]

/-- The operands are read from used bits alone (R64). -/
theorem withOperands_and_formatMask (i : Instr) (w : OpWord) :
    i.withOperands (w &&& formatMask (formatOf i)) = i.withOperands w := by
  rw [← packWord_fields w]
  cases i <;>
    simp [formatOf, formatMask_fields, packWord_and, withOperands_packWord, Instr.withFields, and_ff, colourOf_and_one]

theorem decode_and_formatMask_eq_ok_iff {w : OpWord} {i : Instr} :
    decode (w &&& formatMask (formatOf i)) = .ok i ↔ decode w = .ok i := by
  rw [decode_eq_ok_iff, decode_eq_ok_iff, fieldOPC_and_formatMask, withOperands_and_formatMask]

/-- Settles O7: clearing the ignored bits of a word leaves its operation. -/
theorem ignoredBitsDoNotDecode : Obligations.IgnoredBitsDoNotDecode := by
  intro w w' i hdecode hagree
  rw [← decode_and_formatMask_eq_ok_iff, ← hagree, decode_and_formatMask_eq_ok_iff]
  exact hdecode

/-- Settles O9: the operation has the opcode and the operands of the word's fields. -/
theorem encodeOfDecode : Obligations.EncodeOfDecode := by
  intro w i hdecode
  obtain ⟨hopc, hoperands⟩ := decode_eq_ok_iff.mp hdecode
  calc encode i = encode (i.withOperands w) := by rw [hoperands]
    _ = packWord (opcodeOf i) (fieldA w) (fieldB w) (fieldC w) (fieldD w) (fieldE w) &&& formatMask (formatOf i) :=
      encode_withFields i ..
    _ = w &&& formatMask (formatOf i) := by rw [← hopc, packWord_fields]

/-! ## Rows, samples and reserved words -/

/-- Settles O6: the opcode is the word's highest byte. -/
theorem reservedOpcodesAreExactlyTheRest : Obligations.ReservedOpcodesAreExactlyTheRest := by
  intro w
  rw [← fieldOPC_toNat]
  constructor
  · rintro ⟨hlow, hhigh⟩
    obtain ⟨i, hi⟩ := exists_row hlow hhigh
    exact ⟨_, decode_of_opcode hi.symm⟩
  · intro hreserved
    rw [decode_of_reserved hreserved, BitVec.ofNat_toNat, BitVec.setWidth_eq]

/-- Settles O5: the number of each row's word is its packed fields. -/
theorem opcodeMapDecodesEveryRow : Obligations.OpcodeMapDecodesEveryRow := by
  intro a b c d e
  simp only [ofNat_fields, ofNat_glen]
  have row (i : Instr) : decode (packWord (opcodeOf i) a b c d e) = .ok (i.withFields a b c d e) :=
    decode_packWord i a b c d e
  exact ⟨row .init, row .update, row .clean, row (.fill .off), row (.setCursor 0 0), row .writeString,
    row .writeStringInv, row (.drawPixel 0 0 .off), row .drawImage, row (.lineH 0 0 0 .off), row (.lineV 0 0 0 .off),
    row (.rect 0 0 0 0 .off), row (.waveform 0 0 0 .off), row .displayOff, row .displayOn, row (.setBrightness 0),
    row (.invert false), row (.flip false), row (.mirror false), row (.setFont 0 0 0 0), row .isInitialized,
    row .getLastError, row .clearErrors, row (.writeChar 0 .off)⟩

/-- Settles O4, by decoding each of the words. -/
theorem sampleWordsDecode : Obligations.SampleWordsDecode :=
  ⟨rfl, rfl, rfl, rfl, rfl, rfl, rfl, rfl, rfl, rfl, rfl, rfl, rfl, rfl, rfl, rfl⟩

end Sys2Proof

/-! A line of assembler text is read by its characters' tokens, the row of its mnemonic and the operands and
stream written after it (R68, R69). -/

namespace Sys2Proof.Machine

/-! ## Operand tokens -/

/-- A token that separates nothing: neither the comma between operands nor the sign before a stream (R68). -/
def IsOperand (t : Token) : Prop := t ≠ .comma ∧ t ≠ .stream

theorem isOperand_num (x : Nat) : IsOperand (.num x) := by simp [IsOperand]

theorem isOperand_name (cs : List Nat) : IsOperand (.name cs) := by simp [IsOperand]

/-- Every token that names a colour is an operand that reads as it. -/
theorem colourOperand_of_mem {k : Token} {col : Colour} (h : k ∈ colourTokens col) :
    IsOperand k ∧ colourOperand k = some col := by
  cases col with
  | on =>
    obtain rfl | rfl | rfl : k = .name (codesOf "ON") ∨ k = .name (codesOf "WHITE") ∨ k = .num 1 := by
      simpa [colourTokens] using h
    · exact ⟨isOperand_name _, rfl⟩
    · exact ⟨isOperand_name _, rfl⟩
    · exact ⟨isOperand_num _, rfl⟩
  | off =>
    obtain rfl | rfl : k = .name (codesOf "OFF") ∨ k = .num 0 := by simpa [colourTokens] using h
    · exact ⟨isOperand_name _, rfl⟩
    · exact ⟨isOperand_num _, rfl⟩

/-- Every token that names a boolean is an operand that reads as it. -/
theorem boolOperand_of_mem {t : Token} {v : Bool} (h : t ∈ boolTokens v) : IsOperand t ∧ boolOperand t = some v := by
  cases v with
  | true =>
    obtain rfl | rfl : t = .name (codesOf "true") ∨ t = .num 1 := by simpa [boolTokens] using h
    · exact ⟨isOperand_name _, rfl⟩
    · exact ⟨isOperand_num _, rfl⟩
  | false =>
    obtain rfl | rfl : t = .name (codesOf "false") ∨ t = .num 0 := by simpa [boolTokens] using h
    · exact ⟨isOperand_name _, rfl⟩
    · exact ⟨isOperand_num _, rfl⟩

/-! ## The operand forms, whatever operation they build -/

section
variable (a b c d : Byte) {col : Colour} {k : Token} (hk : colourOperand k = some col)

theorem operandsXY_num (build : Byte → Byte → Instr) :
    operandsXY build [.num a.toNat, .num b.toNat] = some (build a b) := by
  simp [operandsXY]

theorem operandsF_num (glen : HalfWord) (build : Byte → Byte → HalfWord → Byte → Instr) :
    operandsF build [.num a.toNat, .num b.toNat, .num glen.toNat, .num c.toNat] = some (build a b glen c) := by
  simp [operandsF]

theorem operandsOne_of {α : Type} {operand : Token → Option α} {t : Token} {x : α} (h : operand t = some x)
    (build : α → Instr) : operandsOne operand build [t] = some (build x) := by
  simp [operandsOne, h]

include hk

theorem operandsCK_num (build : Byte → Colour → Instr) : operandsCK build [.num a.toNat, k] = some (build a col) := by
  simp [operandsCK, hk]

theorem operandsXYK_num (build : Byte → Byte → Colour → Instr) :
    operandsXYK build [.num a.toNat, .num b.toNat, k] = some (build a b col) := by
  simp [operandsXYK, hk]

theorem operandsXYLK_num (build : Byte → Byte → Byte → Colour → Instr) :
    operandsXYLK build [.num a.toNat, .num b.toNat, .num c.toNat, k] = some (build a b c col) := by
  simp [operandsXYLK, hk]

theorem operandsRK_num (build : Byte → Byte → Byte → Byte → Colour → Instr) :
    operandsRK build [.num a.toNat, .num b.toNat, .num c.toNat, .num d.toNat, k] = some (build a b c d col) := by
  simp [operandsRK, hk]

end

/-! ## Lines -/

/-- A line's characters are read as its tokens, and these as its operation and stream. -/
theorem assembleLine_of_spelling {text : String} {t : Token} {ts : List Token} {p : Instr × List Byte}
    (hparse : parseTokens (t :: ts) = some p) (hspell : LineSpelling (t :: ts) (codesOf text)) :
    assembleLine text = some (some p) := by
  simp only [assembleLine, lexFrom_of_spelling hspell, Option.bind_some, hparse, Option.map_some]

theorem assembleLine_of_empty {text : String} (hspell : LineSpelling [] (codesOf text)) :
    assembleLine text = some none := by
  simp only [assembleLine, lexFrom_of_spelling hspell, Option.bind_some]

section
variable {name : String} {ops : List Token} {row : String × (List Token → Option Instr)} {i : Instr}
  (hrow : mnemonicTable.find? (fun row => decide (codesOf row.1 = codesOf name)) = some row)
  (hops : ∀ t ∈ ops, IsOperand t) (hread : row.2 ops = some i)
include hrow hops hread

theorem assembleLine_line {text : String}
    (hspell : LineSpelling (.name (codesOf name) :: ops.intersperse .comma) (codesOf text)) :
    assembleLine text = some (some (i, [])) :=
  assembleLine_of_spelling (parseTokens_line hrow hops hread) hspell

/-- The line of an operation that reads a stream, with the stream written in any form (R68, log 21). -/
theorem assembleLine_stream {text : String} {bs : List Byte} {tail : List Token} (htail : StreamTokens bs tail)
    (hstream : readsStream i = true)
    (hspell : LineSpelling (.name (codesOf name) :: ops.intersperse .comma ++ tail) (codesOf text)) :
    assembleLine text = some (some (i, bs)) := by
  cases htail with
  | none => exact assembleLine_line hrow hops hread (by simpa using hspell)
  | bytes bs =>
    exact assembleLine_of_spelling (parseTokens_line_stream hrow hops hread (streamBytes_brackets bs) hstream) hspell
  | text w => exact assembleLine_of_spelling (parseTokens_line_stream hrow hops hread rfl hstream) hspell

end

/-! ## Programs -/

theorem assemble_cons_empty {text : String} {lines : List String} {events : List HostEvent}
    (hline : assembleLine text = some none) (hlines : assemble lines = some events) :
    assemble (text :: lines) = some events := by
  simp [assemble, hline, hlines]

/-- A line's operation is issued before those of the later lines (R9). -/
theorem assemble_cons_operation {text : String} {lines : List String} {events : List HostEvent} {i : Instr}
    {bs : List Byte} (hline : assembleLine text = some (some (i, bs))) (hlines : assemble lines = some events) :
    assemble (text :: lines) = some (.operation (encode i) bs :: events) := by
  simp [assemble, hline, hlines]

/-- Settles O10, mnemonic by mnemonic: each one's row of the table is found, its operands are operand tokens, and
the row reads them. -/
theorem assembledLinesAreTheirOperations : Obligations.AssembledLinesAreTheirOperations := by
  refine ⟨?_, fun _ => assembleLine_of_empty, rfl, fun _ _ _ hlines =>
    ⟨fun hline => assemble_cons_empty hline hlines, fun _ _ hline => assemble_cons_operation hline hlines⟩⟩
  intro a b c d glen col v stream k t tail hk ht htail n line reads
  obtain ⟨hkop, hk⟩ := colourOperand_of_mem hk
  obtain ⟨htop, ht⟩ := boolOperand_of_mem ht
  have hn : IsOperand (n a) ∧ IsOperand (n b) ∧ IsOperand (n c) ∧ IsOperand (n d) ∧ IsOperand (.num glen.toNat) :=
    ⟨isOperand_num _, isOperand_num _, isOperand_num _, isOperand_num _, isOperand_num _⟩
  have opN : ∀ t ∈ [], IsOperand t := by simp
  have opK : ∀ t ∈ [k], IsOperand t := by simp [hkop]
  have opV : ∀ u ∈ [t], IsOperand u := by simp [htop]
  have opX : ∀ t ∈ [n a], IsOperand t := by simp [hn]
  have opXY : ∀ t ∈ [n a, n b], IsOperand t := by simp [hn]
  have opCK : ∀ t ∈ [n a, k], IsOperand t := by simp [hn, hkop]
  have opXYK : ∀ t ∈ [n a, n b, k], IsOperand t := by simp [hn, hkop]
  have opXYLK : ∀ t ∈ [n a, n b, n c, k], IsOperand t := by simp [hn, hkop]
  have opRK : ∀ t ∈ [n a, n b, n c, n d, k], IsOperand t := by simp [hn, hkop]
  have opF : ∀ t ∈ [n a, n b, .num glen.toNat, n c], IsOperand t := by simp [hn]
  exact ⟨fun _ => assembleLine_line rfl opN rfl,
    fun _ => assembleLine_line rfl opN rfl,
    fun _ => assembleLine_line rfl opN rfl,
    fun _ => assembleLine_line rfl opK (operandsOne_of hk _),
    fun _ => assembleLine_line rfl opXY (operandsXY_num a b _),
    fun _ => assembleLine_stream rfl opN rfl htail rfl,
    fun _ => assembleLine_stream rfl opN rfl htail rfl,
    fun _ => assembleLine_line rfl opXYK (operandsXYK_num a b hk _),
    fun _ => assembleLine_stream rfl opN rfl htail rfl,
    fun _ => assembleLine_line rfl opXYLK (operandsXYLK_num a b c hk _),
    fun _ => assembleLine_line rfl opXYLK (operandsXYLK_num a b c hk _),
    fun _ => assembleLine_line rfl opRK (operandsRK_num a b c d hk _),
    fun _ => assembleLine_stream rfl opXYLK (operandsXYLK_num a b c hk _) htail rfl,
    fun _ => assembleLine_line rfl opN rfl,
    fun _ => assembleLine_line rfl opN rfl,
    fun _ => assembleLine_line rfl opX (operandsOne_of (byteOperand_num a) _),
    fun _ => assembleLine_line rfl opV (operandsOne_of ht _),
    fun _ => assembleLine_line rfl opV (operandsOne_of ht _),
    fun _ => assembleLine_line rfl opV (operandsOne_of ht _),
    fun _ => assembleLine_line rfl opF (operandsF_num a b c glen _),
    fun _ => assembleLine_line rfl opN rfl,
    fun _ => assembleLine_line rfl opN rfl,
    fun _ => assembleLine_line rfl opN rfl,
    fun _ => assembleLine_line rfl opCK (operandsCK_num a hk _),
    fun _ => assembleLine_line rfl opRK (operandsRK_num a b c d hk _),
    fun _ => assembleLine_line rfl opXY (operandsXY_num a b _),
    fun _ => assembleLine_line rfl opXY (operandsXY_num a b _)⟩

end Sys2Proof.Machine

/-! The protocol operations emit the transactions of their scripts (R160 to R176), and words that read no stream and
no font run within the contract (R65, R226, R255). -/

namespace Sys2Proof.Machine

/-! ## Scripts -/

/-- What running a script of transactions changes, in the form of the rules of R160 to R162. -/
theorem emitAll_fields (s : State) (ts : List Tx) :
    emitAll s ts =
      { s with err := (emitAll s ts).err, log := (emitAll s ts).log, answers := s.answers.drop ts.length } ∧
    (emitAll s ts).log = s.log ++ answered s ts ∧
    (emitAll s ts).err = lastFailure s.err ((answered s ts).map Transaction.status) := by
  rw [emitAll_eq]
  exact ⟨rfl, rfl, rfl⟩

/-- A completed operation's new log entries are its answered script (R160, R162). -/
theorem exec_log {i : Instr} {s t : State} (h : exec i s = .next t) : t.log = s.log ++ answered s (scriptOf i s) := by
  obtain ⟨-, ⟨hscript, -, hdraw⟩ | ⟨rfl, rfl⟩ | ⟨-, -, rfl⟩ | ⟨x, y, rfl, rfl⟩ | ⟨gw, gh, glen, fid, rfl, -, rfl⟩ |
    ⟨rfl, rfl⟩ | ⟨rfl, rfl⟩ | ⟨rfl, rfl⟩⟩ := exec_next_cases h
  · obtain ⟨-, -, -, -, -, -, -, -, -, -, hlog, -⟩ := hdraw.fields
    rw [hlog, hscript, answered_nil, List.append_nil]
  · rw [initBody_fields]
  · rw [emitAll_eq]
  all_goals exact (List.append_nil _).symm

theorem length_filter_answered (p : Tx → Bool) (s : State) (ts : List Tx) :
    ((answered s ts).filter fun e => p e.tx).length = (ts.filter p).length := by
  conv_rhs => rw [← answered_tx s ts, List.filter_map, List.length_map]
  rfl

/-- Settles O44: the new transactions are the answered script, counted row by row of R176. -/
theorem transactionCounts : Obligations.TransactionCounts := by
  intro i s t h
  refine ⟨answered s (scriptOf i s), exec_log h, fun _ => answered_addr, ?_⟩
  rw [length_filter_answered isCmd, length_filter_answered fun tx => !isCmd tx]
  cases i <;> rfl

/-! ## Runtime commands -/

/-- Settles O34: each command is the script of its one or two bytes. -/
theorem runtimeCommandsEmitTheirBytes : Obligations.RuntimeCommandsEmitTheirBytes := by
  intro s value v p hp
  have hexec : exec p.1 s = .next (emitAll s (p.2.map .cmd)) := by
    simp only [List.mem_cons, List.not_mem_nil, or_false] at hp
    obtain rfl | rfl | rfl | rfl | rfl | rfl := hp <;> rfl
  obtain ⟨hframe, hlog, herr⟩ := emitAll_fields s (p.2.map .cmd)
  rw [List.length_map] at hframe
  exact ⟨_, hexec, hframe, hlog, herr⟩

/-! ## UPDATE and INIT -/

/-- Settles O33: UPDATE_BODY is one script of the window's bytes and the framebuffer's block. -/
theorem updateSendsTheWindowAndTheBuffer : Obligations.UpdateSendsTheWindowAndTheBuffer := by
  refine ⟨fun s hgt => fbGate_gt _ hgt, fun s hheight => ?_⟩
  have hexec : exec .update s = .next (emitAll s (scriptOf .update s)) :=
    (fbGate_le _ hheight).trans (congrArg _ (updateBody_eq s))
  have hbytes (k : Nat) (hk : k < 16 * s.cfgH.toNat) :
      (s.fb.bytes (16 * s.cfgH.toNat))[k]? = some (s.fb.read k) := by
    rw [List.getElem?_eq_getElem (by rwa [Memory.bytes_length]), Memory.bytes_getElem]
  obtain ⟨hframe, hlog, herr⟩ := emitAll_fields s (scriptOf .update s)
  exact ⟨_, s.fb.bytes (16 * s.cfgH.toNat), Memory.bytes_length .., hbytes, hexec, hframe, hlog, herr⟩

/-- INIT clears every byte of the framebuffer and no other (R164). -/
theorem read_initBody {s : State} (hw : s.fb.wf = true) (a : Nat) :
    (initBody s).fb.read a = if a < 16 * s.cfgH.toNat then 0x00 else s.fb.read a := by
  rw [initBody_fb, read_pbFill .off hw]
  rfl

/-- What INIT changes, in the form of the rules of R160 to R165. -/
theorem initBody_outcome (s : State) :
    initBody s =
      { s with fb := (initBody s).fb, err := (initBody s).err, initOk := (initBody s).initOk, log := (initBody s).log,
               answers := (initBody s).answers } ∧
    (initBody s).log = s.log ++ answered s (scriptOf .init s) ∧
    (initBody s).answers = s.answers.drop 38 ∧
    (initBody s).err = lastFailure s.err ((answered s (scriptOf .init s)).map Transaction.status) ∧
    ((initBody s).initOk = true ↔ (initBody s).err = 0) := by
  rw [initBody_fields, ← scriptOf_init_length s]
  generalize scriptOf .init s = ts
  exact ⟨rfl, rfl, rfl, rfl, decide_eq_true_iff⟩

/-- Settles O32: INIT's script is the bytes of R163 and R164, the COM-pins operand as R72 computes it. -/
theorem initRunsItsScript : Obligations.InitRunsItsScript := by
  refine ⟨fun s hgt => fbGate_gt _ hgt, ?_⟩
  intro s hheight hw h script
  have hscript : scriptOf .init s = script := by
    simp only [script, scriptOf, initBytes]
    cases s.cfgCom <;> rfl
  obtain ⟨hframe, hlog, hanswers, herr, hok⟩ := initBody_outcome s
  rw [hscript] at hlog herr
  exact ⟨initBody s, fbGate_le _ hheight, hframe, hlog, hanswers, fun a ha => (read_initBody hw a).trans (if_pos ha),
    fun a ha => (read_initBody hw a).trans (if_neg (Nat.not_lt.mpr ha)), herr, hok⟩

/-! ## Words the block takes without its streams and its font store -/

/-- A word that is no operation is taken from the port and does nothing (R65, log 10). -/
theorem step_of_undecoded {s : State} {w : OpWord} {stream : List Byte} {rest : List HostEvent} {e : DecodeError}
    (hport : s.port = .operation w stream :: rest) (hdecode : decode w = .error e) :
    step s = .next { s with port := rest } := by
  simp only [step, hport, hdecode]
  rfl

/-- Settles O12: a reserved opcode does not decode. -/
theorem reservedWordDoesNothing : Obligations.ReservedWordDoesNothing := by
  intro s w stream rest hport hreserved
  rw [← fieldOPC_toNat] at hreserved
  exact step_of_undecoded hport (decode_of_reserved hreserved)

/-- Up to height 64 a well-formed operation that reads no stream and no font completes (R226, R250). -/
theorem exec_next_of_streamless {i : Instr} {s : State} (hheight : s.cfgH.toNat ≤ 64) (hwf : i.wellFormed = true)
    (hstream : readsStream i = false) (hchar : ∀ ch c, i ≠ .writeChar ch c) : ∃ t, exec i s = .next t := by
  cases i with
  | init | update | clean | fill | drawPixel | lineH | lineV | rect => exact ⟨_, fbGate_le _ hheight⟩
  | drawImage | waveform | writeString | writeStringInv => cases hstream
  | writeChar ch c => exact absurd rfl (hchar ch c)
  | setFont gw gh glen fid => exact ⟨_, if_neg (Nat.not_lt.mpr (of_decide_eq_true hwf))⟩
  | _ => exact ⟨_, rfl⟩

theorem exec_port {i : Instr} {s t : State} (h : exec i s = .next t) : t.port = s.port := by
  obtain ⟨-, -, -, -, -, hport, -⟩ := whoWritesWhichRegister i s t h
  exact hport

theorem StreamlessPort.tail {s t : State} {e : HostEvent} (hs : StreamlessPort s) (hport : s.port = e :: t.port) :
    StreamlessPort t := fun e' he' => hs e' (hport ▸ List.mem_cons_of_mem e he')

/-- Settles O52: the step takes the oldest event, and the operation, if there is one, completes and leaves the
height and the rest of the port. -/
theorem stepKeepsStreamlessPort : Obligations.StepKeepsStreamlessPort := by
  intro s hheight hs
  cases hport : s.port with
  | nil => exact ⟨s, step_of_idle hport, hheight, hs⟩
  | cons e rest =>
    cases e with
    | installFont fid rows => exact ⟨_, step_of_installFont hport, hheight, hs.tail hport⟩
    | operation w stream =>
      cases hdecode : decode w with
      | error e => exact ⟨_, step_of_undecoded hport hdecode, hheight, hs.tail hport⟩
      | ok i =>
        obtain ⟨hwf, hstream, hchar⟩ := hs _ (hport ▸ List.mem_cons_self) w stream rfl i hdecode
        obtain ⟨u, hu⟩ : ∃ u, exec i { s with port := rest, stream := stream } = .next u :=
          exec_next_of_streamless hheight hwf hstream hchar
        have hu_height : u.cfgH = s.cfgH := (exec_sameConfig hu).1
        have hu_port : u.port = rest := exec_port hu
        refine ⟨{ u with stream := [] }, ?_, hu_height ▸ hheight, hs.tail (hu_port ▸ hport)⟩
        rw [step_of_operation hport hdecode, hu, completed_next]

/-- A property whose states all step to states of the same kind makes every run safe. -/
theorem safeRun_of_step {P : State → Prop} (hstep : ∀ s, P s → ∃ t, step s = .next t ∧ P t) {s : State} (hs : P s) :
    SafeRun s := by
  intro n
  induction n generalizing s with
  | zero => exact ⟨s, rfl⟩
  | succ n ih =>
    obtain ⟨t, ht, hPt⟩ := hstep s hs
    rw [core_run_next n ht]
    exact ih hPt

theorem readsStream_eq_false {i : Instr} (himage : i ≠ .drawImage) (hstring : i ≠ .writeString)
    (hstringInv : i ≠ .writeStringInv) (hwave : ∀ x y n c, i ≠ .waveform x y n c) : readsStream i = false := by
  cases i with
  | drawImage => exact absurd rfl himage
  | writeString => exact absurd rfl hstring
  | writeStringInv => exact absurd rfl hstringInv
  | waveform x y n c => exact absurd rfl (hwave x y n c)
  | _ => rfl

/-- Settles O50, from O52: the port is streamless, and stays so over every step. -/
theorem streamlessWordsRunSafely : Obligations.StreamlessWordsRunSafely := by
  intro s hheight hwords
  have hs : StreamlessPort s := by
    intro e he w stream hw i hdecode
    obtain ⟨hwf, himage, hstring, hstringInv, hwave, hchar⟩ := hwords e he w stream hw i hdecode
    exact ⟨hwf, readsStream_eq_false himage hstring hstringInv hwave, hchar⟩
  exact safeRun_of_step (P := fun s => s.cfgH.toNat ≤ 64 ∧ StreamlessPort s)
    (fun u ⟨huheight, huport⟩ => stepKeepsStreamlessPort u huheight huport) ⟨hheight, hs⟩

end Sys2Proof.Machine

/-! The pixel buffer's operations: FILL and CLEAN, one PB_SET and two at one coordinate, and lists of PB_SET calls in
one colour (R90 to R96, R110). -/

namespace Sys2Proof.Machine

/-! ## Framebuffers drawn alike -/

/-- Drawing the same bits in one colour has one result. -/
theorem DrawnExactly.unique {c : Colour} {hit : Nat → Nat → Prop} {m m₁ m₂ : Memory} (h₁ : DrawnExactly c hit m m₁)
    (h₂ : DrawnExactly c hit m m₂) (hw₁ : m₁.wf = true) (hw₂ : m₂.wf = true) : m₁ = m₂ := by
  refine ext_bits hw₁ hw₂ fun a k hk => ?_
  obtain ⟨hdrawn₁, hkept₁⟩ := h₁ a k hk
  obtain ⟨hdrawn₂, hkept₂⟩ := h₂ a k hk
  by_cases hhit : hit a k
  · rw [hdrawn₁ hhit, hdrawn₂ hhit]
  · rw [hkept₁ hhit, hkept₂ hhit]

/-- A list of PB_SET calls in one colour has the result of any drawing of the bits the calls name (R110). -/
theorem plot_eq_of_drawnExactly {h : Byte} {m m' : Memory} {ps : List Pixel} {c : Colour} {hit : Nat → Nat → Prop}
    (hw : m.wf = true) (hw' : m'.wf = true) (hc : ∀ p ∈ ps, p.c = c)
    (hhits : ∀ a k, (∃ p ∈ ps, PlotsTo h p.x p.y a k) ↔ hit a k) (hm' : DrawnExactly c hit m m') :
    plot h m ps = m' :=
  (drawnExactly_congr hhits (plot_drawnExactly h ps hw c hc)).unique hm' (wf_plot h ps hw) hw'

/-- Settles O15: a permutation names the same bits. -/
theorem plotOrderDoesNotMatter : Obligations.PlotOrderDoesNotMatter := by
  intro h m ps qs c hw hps hperm
  have hqs : ∀ q ∈ qs, q.c = c := fun q hq => hps q (hperm.mem_iff.mpr hq)
  exact plot_eq_of_drawnExactly hw (wf_plot h qs hw) hps (fun a k => by simp only [hperm.mem_iff])
    (plot_drawnExactly h qs hw c hqs)

/-! ## FILL and CLEAN -/

theorem exec_fill {s : State} (c : Colour) (hheight : s.cfgH.toNat ≤ 64) : exec (.fill c) s = .next (s.pbFill c) :=
  fbGate_le _ hheight

theorem fillByte_getLsbD (c : Colour) {k : Nat} (hk : k < 8) : (fillByte c).getLsbD k = isOn c := by
  cases c with
  | off => exact BitVec.getLsbD_zero
  | on => exact (BitVec.getLsbD_allOnes (v := 8)).trans (decide_eq_true hk)

/-- The fill draws the bits of the in-bounds coordinates, which are the bits of the bytes below `N` (R44, R91). -/
theorem drawnExactly_pbFill {s : State} (c : Colour) (hm : s.cfgH.toNat % 8 = 0) (hw : s.fb.wf = true) :
    DrawnExactly c (fun a k => ∃ x y, PlotsTo s.cfgH x y a k) s.fb (s.pbFill c).fb := by
  intro a k hk
  rw [bitAt, read_pbFill c hw]
  constructor
  · rintro ⟨x, y, hb, rfl, -⟩
    rw [if_pos (fbIndex_lt hm hb), fillByte_getLsbD c hk]
  · intro hmiss
    have hge : ¬ a < 16 * s.cfgH.toNat := by
      intro ha
      obtain ⟨x, y, hb, hidx, hbit, -, -⟩ := exists_pixel_of_bit hm ha hk
      exact hmiss ⟨x, y, hb, hidx, hbit⟩
    rw [if_neg hge, bitAt]

/-- Settles O17: the calls and the fill draw the bits of the in-bounds coordinates. -/
theorem fillEqualsSettingEveryPixel : Obligations.FillEqualsSettingEveryPixel := by
  intro s t c ps hs hexec hc hcover
  obtain ⟨-, hnext⟩ := fbGate_next hexec
  cases hnext
  refine plot_eq_of_drawnExactly hs.fb_wf (wf_pbFill c hs.fb_wf) hc (fun a k => ?_)
    (drawnExactly_pbFill c hs.height_mul hs.fb_wf)
  constructor
  · rintro ⟨p, -, hplots⟩
    exact ⟨p.x, p.y, hplots⟩
  · rintro ⟨x, y, hb, hplots⟩
    obtain ⟨p, hp, rfl, rfl⟩ := hcover x y hb
    exact ⟨p, hp, hb, hplots⟩

/-- Settles O16: `read_pbFill` says each byte of the filled buffer, and CLEAN is defined as the fill in OFF. -/
theorem fillAndCleanWriteEveryByte : Obligations.FillAndCleanWriteEveryByte := by
  intro s hheight hw
  refine ⟨rfl, fun c => ⟨s.pbFill c, exec_fill c hheight, rfl, ?_, ?_⟩⟩
  · intro a ha
    rw [read_pbFill c hw, if_pos ha]
    cases c <;> rfl
  · intro a ha
    rw [read_pbFill c hw, if_neg (Nat.not_lt.mpr ha)]

/-! ## DRAW_PIXEL -/

theorem exec_drawPixel {s : State} (x y : Byte) (c : Colour) (hheight : s.cfgH.toNat ≤ 64) :
    exec (.drawPixel x y c) s = .next (s.setFb (pbSet s.cfgH s.fb ⟨x, y, c⟩)) :=
  fbGate_le _ hheight

theorem pbSet_drawnExactly {m : Memory} (h x y : Byte) (c : Colour) (hw : m.wf = true) :
    DrawnExactly c (fun a k => PlotsTo h x y a k) m (pbSet h m ⟨x, y, c⟩) := fun a _ hk =>
  ⟨fun hhit => (bitAt_pbSet h _ hw a hk).trans (if_pos hhit), fun hmiss => (bitAt_pbSet h _ hw a hk).trans (if_neg hmiss)⟩

/-- Settles O19: DRAW_PIXEL is one PB_SET (R111). -/
theorem drawPixelWritesOneBit : Obligations.DrawPixelWritesOneBit := fun s x y c hheight hw =>
  ⟨_, exec_drawPixel x y c hheight, rfl, pbSet_drawnExactly s.cfgH x y c hw⟩

/-- Settles O20: the coordinate is out of bounds, so its PB_SET is clipped. -/
theorem clippedPixelChangesNothing : Obligations.ClippedPixelChangesNothing := by
  intro s x y c hheight hoff
  have hclip : inb s.cfgH x y = false := by
    rw [Bool.eq_false_iff, ne_eq, inb_iff]
    omega
  rw [exec_drawPixel x y c hheight, pbSet_clipped hclip]
  rfl

/-- Of two PB_SETs at one coordinate the second decides. -/
theorem pbSet_pbSet_same {m : Memory} (h x y : Byte) (c c' : Colour) (hw : m.wf = true) :
    pbSet h (pbSet h m ⟨x, y, c⟩) ⟨x, y, c'⟩ = pbSet h m ⟨x, y, c'⟩ := by
  have hset := wf_pbSet h ⟨x, y, c⟩ hw
  refine ext_bits (wf_pbSet h _ hset) (wf_pbSet h _ hw) fun a k hk => ?_
  rw [bitAt_pbSet h _ hset a hk, bitAt_pbSet h _ hw a hk, bitAt_pbSet h _ hw a hk]
  split <;> rfl

theorem pixelOn_pbSet_self {m : Memory} {h x y : Byte} (c : Colour) (hw : m.wf = true) (hb : inb h x y = true) :
    pixelOn (pbSet h m ⟨x, y, c⟩) x.toNat y.toNat = isOn c :=
  (pbSet_drawnExactly h x y c hw (fbIndex x y) (fbBit y) (fbBit_lt y)).1 ⟨hb, rfl, rfl⟩

/-- An in-bounds PB_SET changes nothing exactly when the pixel has its colour already. -/
theorem pbSet_eq_self_iff {m : Memory} {h x y : Byte} (c : Colour) (hw : m.wf = true) (hb : inb h x y = true) :
    pbSet h m ⟨x, y, c⟩ = m ↔ pixelOn m x.toNat y.toNat = isOn c := by
  constructor
  · intro heq
    rw [← pixelOn_pbSet_self c hw hb, heq]
  · intro hon
    refine ext_bits (wf_pbSet h _ hw) hw fun a k hk => ?_
    obtain ⟨hdrawn, hkept⟩ := pbSet_drawnExactly h x y c hw a k hk
    by_cases hhit : PlotsTo h x y a k
    · obtain ⟨-, rfl, rfl⟩ := hhit
      exact (hdrawn ⟨hb, rfl, rfl⟩).trans hon.symm
    · exact hkept hhit

theorem setFb_eq_self_iff (s : State) (m : Memory) : s.setFb m = s ↔ m = s.fb :=
  ⟨fun heq => congrArg State.fb heq, fun heq => heq ▸ rfl⟩

/-- Two DRAW_PIXELs at one coordinate are the second alone. -/
theorem execAll_drawPixel_same {s : State} (x y : Byte) (c c' : Colour) (hheight : s.cfgH.toNat ≤ 64)
    (hw : s.fb.wf = true) :
    execAll [.drawPixel x y c, .drawPixel x y c'] s = .next (s.setFb (pbSet s.cfgH s.fb ⟨x, y, c'⟩)) := by
  have hsecond := exec_drawPixel (s := s.setFb (pbSet s.cfgH s.fb ⟨x, y, c⟩)) x y c' hheight
  simp only [execAll, exec_drawPixel x y c hheight, hsecond, State.setFb_cfgH, State.setFb_fb,
    pbSet_pbSet_same _ x y c c' hw]
  rfl

/-- Settles O21: ON and then OFF is one PB_SET of OFF. -/
theorem setThenClearLeavesTheBitClear : Obligations.SetThenClearLeavesTheBitClear := by
  intro s x y hheight hw hb
  refine ⟨_, execAll_drawPixel_same x y .on .off hheight hw, pixelOn_pbSet_self .off hw hb, ?_, ?_⟩
  · intro a k hk hmiss
    exact (pbSet_drawnExactly s.cfgH x y .off hw a k hk).2 hmiss
  · rw [setFb_eq_self_iff, pbSet_eq_self_iff .off hw hb, isOn]

end Sys2Proof.Machine

/-! The raster primitives LINE_H, LINE_V and RECT: each draws the bits its `PB_SET` calls name and changes nothing
else (R112 to R114, R117). -/

namespace Sys2Proof.Machine

/-- A primitive whose calls are all in one colour completes up to height 64, draws exactly the bits they name and
keeps the rest of the state (R117). -/
theorem fbGate_plot_drawnExactly {s : State} {ps : List Pixel} {c : Colour} {hit : Nat → Nat → Prop}
    (hheight : s.cfgH.toNat ≤ 64) (hw : s.fb.wf = true) (hc : ∀ p ∈ ps, p.c = c)
    (hhits : ∀ a k, (∃ p ∈ ps, PlotsTo s.cfgH p.x p.y a k) ↔ hit a k) :
    ∃ t, fbGate s (.next (s.plot ps)) = .next t ∧ t = { s with fb := t.fb } ∧ DrawnExactly c hit s.fb t.fb :=
  ⟨s.plot ps, fbGate_le _ hheight, rfl, drawnExactly_congr hhits (plot_drawnExactly s.cfgH ps hw c hc)⟩

/-- The bits named by calls that are numbered below `n`. -/
theorem numberedPixels_hits {h : Byte} {ps : List Pixel} {n : Nat} {call : Nat → Pixel}
    (hmem : ∀ p, p ∈ ps ↔ ∃ i, i < n ∧ p = call i) (a k : Nat) :
    (∃ p ∈ ps, PlotsTo h p.x p.y a k) ↔ ∃ i, i < n ∧ PlotsTo h (call i).x (call i).y a k := by
  constructor
  · rintro ⟨p, hp, hplots⟩
    obtain ⟨i, hi, rfl⟩ := (hmem p).mp hp
    exact ⟨i, hi, hplots⟩
  · rintro ⟨i, hi, hplots⟩
    exact ⟨call i, (hmem _).mpr ⟨i, hi, rfl⟩, hplots⟩

/-- The bits a RECT names: those of the coordinates on a horizontal or on a vertical side (R114). -/
theorem rectPixels_hits {h x1 y1 x2 y2 : Byte} {c : Colour} (a k : Nat) :
    (∃ p ∈ rectPixels x1 y1 x2 y2 c, PlotsTo h p.x p.y a k) ↔
      ∃ x y : Byte, PlotsTo h x y a k ∧
        (((y = y1 ∨ y = y2) ∧ (x - x1).toNat < (x2 - x1 + 1).toNat) ∨
         ((x = x1 ∨ x = x2) ∧ (y - y1).toNat < (y2 - y1 + 1).toNat)) := by
  constructor
  · rintro ⟨p, hp, hplots⟩
    exact ⟨p.x, p.y, hplots, (mem_rectPixels.mp hp).2⟩
  · rintro ⟨x, y, hplots, hside⟩
    exact ⟨⟨x, y, c⟩, mem_rectPixels.mpr ⟨rfl, hside⟩, hplots⟩

/-- Settles O22: LINE_H plots the pixels of its row, one for each index below `len`. -/
theorem lineHDrawsItsRow : Obligations.LineHDrawsItsRow := fun _ _ _ _ _ hheight hw =>
  fbGate_plot_drawnExactly hheight hw (fun _ hp => (mem_lineHPixels_distance.mp hp).1)
    (numberedPixels_hits fun _ => mem_lineHPixels)

/-- Settles O23: LINE_V plots the pixels of its column, one for each index below `len`. -/
theorem lineVDrawsItsColumn : Obligations.LineVDrawsItsColumn := fun _ _ _ _ _ hheight hw =>
  fbGate_plot_drawnExactly hheight hw (fun _ hp => (mem_lineVPixels_distance.mp hp).1)
    (numberedPixels_hits fun _ => mem_lineVPixels)

/-- Settles O24: RECT plots two rows and two columns, whose pixels are known by wrapping distance for every order of
the corners. -/
theorem rectDrawsItsFourSides : Obligations.RectDrawsItsFourSides := fun _ _ _ _ _ _ hheight hw =>
  fbGate_plot_drawnExactly hheight hw (fun _ hp => (mem_rectPixels.mp hp).1) rectPixels_hits

end Sys2Proof.Machine

/-! The glyph renderer: the cursor and the font descriptor, and a character's box cell by cell, or its rejection
(R131 to R138). -/

namespace Sys2Proof.Machine

/-! ## Cursor and font -/

/-- Settles O27: SET_CURSOR and a SET_FONT of legal width are register updates, a wider one fails the width test. -/
theorem cursorAndFontAreSetAlone : Obligations.CursorAndFontAreSetAlone := by
  refine ⟨fun _ _ _ => rfl, fun s gw gh fid glen => ⟨fun hlegal => ?_, fun hwide => ?_⟩⟩
  · exact if_neg (Nat.not_lt.mpr hlegal)
  · exact if_pos hwide

/-! ## WRITE_CHAR by the contract of the font store -/

theorem exec_writeChar_answered {s : State} {ch : Byte} (c : Colour) (hheight : s.cfgH.toNat ≤ 64)
    (hanswered : GlyphAnswered s ch) : exec (.writeChar ch c) s = .next (renderChar c s ch) :=
  (fbGate_le _ hheight).trans (if_neg (Bool.eq_false_iff.mp (glyphUnanswered_eq_false.mpr hanswered)))

theorem exec_writeChar_unanswered {s : State} {ch : Byte} (c : Colour) (hheight : s.cfgH.toNat ≤ 64)
    (hno : ¬ GlyphAnswered s ch) : exec (.writeChar ch c) s = .refused .fontUnanswered := by
  rw [← glyphUnanswered_eq_false, Bool.not_eq_false] at hno
  exact (fbGate_le _ hheight).trans (if_pos hno)

/-! ## A character the font does not hold -/

theorem renderChar_of_not_encoded {s : State} {ch : Byte} (c : Colour)
    (hno : ¬ glyphEncoded ch s.font.gh s.font.glen = true) : renderChar c s ch = s := if_neg hno

/-- Settles O29: an unencoded character needs no row word and is not rendered; a missing row of an encoded one is
what the store must answer. -/
theorem unencodedCharacterIsRejected : Obligations.UnencodedCharacterIsRejected := by
  intro s ch c hheight
  constructor
  · intro hout
    have hno : ¬ glyphEncoded ch s.font.gh s.font.glen = true := by
      rw [glyphEncoded_iff]
      omega
    rw [exec_writeChar_answered c hheight fun hencoded => absurd hencoded hno, renderChar_of_not_encoded c hno]
  · intro r hlow hlen hr hmissing
    exact exec_writeChar_unanswered c hheight fun hanswered =>
      hanswered ((glyphEncoded_iff _ _ _).mpr ⟨hlow, hlen⟩) r hr hmissing

/-! ## The cells of a glyph box -/

theorem isOn_complement (c : Colour) : isOn (complement c) = !isOn c := by
  cases c <;> rfl

/-- A cell's colour is `c` or the other one by the row word's bit `15 - col` (R47, R134). -/
theorem isOn_cellColour (row : HalfWord) {col : Nat} (c : Colour) (hcol : col < 16) :
    isOn (cellColour row col c) = if row.getLsbD (15 - col) then isOn c else !isOn c := by
  rw [cellColour, columnSet_eq row col hcol, apply_ite isOn, isOn_complement]

theorem eq_of_add_ofNat_eq {x : Byte} {i j : Nat} (hi : i < 256) (hj : j < 256)
    (h : x + BitVec.ofNat 8 i = x + BitVec.ofNat 8 j) : i = j := by
  bv_omega

/-- No two cells of a box of at most 16 columns and 256 rows address one framebuffer bit (R43). -/
theorem eq_of_cells_plotTo_same {h x y : Byte} {r col r' col' a k : Nat} (hr : r < 256) (hr' : r' < 256)
    (hcol : col < 16) (hcol' : col' < 16)
    (hcell : PlotsTo h (x + BitVec.ofNat 8 col) (y + BitVec.ofNat 8 r) a k)
    (hcell' : PlotsTo h (x + BitVec.ofNat 8 col') (y + BitVec.ofNat 8 r') a k) : r = r' ∧ col = col' := by
  obtain ⟨hb, hidx, hbit⟩ := hcell
  obtain ⟨hb', hidx', hbit'⟩ := hcell'
  obtain ⟨hx, hy⟩ := eq_of_fbIndex_fbBit_eq hb hb' (hidx.trans hidx'.symm) (hbit.trans hbit'.symm)
  exact ⟨eq_of_add_ofNat_eq hr hr' hy, eq_of_add_ofNat_eq (by omega) (by omega) hx⟩

/-- A bit that a cell of the box addresses takes that cell's colour: no other cell addresses it (R133). -/
theorem bitAt_plot_glyphPixels_cell {s : State} (ch : Byte) (c : Colour) {r col a k : Nat} (hw : s.fb.wf = true)
    (hwidth : s.font.gw.toNat ≤ 16) (hr : r < s.font.gh.toNat) (hcol : col < s.font.gw.toNat)
    (hcell : PlotsTo s.cfgH (s.cx + BitVec.ofNat 8 col) (s.cy + BitVec.ofNat 8 r) a k) :
    bitAt (plot s.cfgH s.fb (glyphPixels s ch c)) a k = isOn (cellColour (glyphRow s ch r) col c) := by
  have hk : k < 8 := by
    obtain ⟨-, -, rfl⟩ := hcell
    exact fbBit_lt _
  refine bitAt_plot_hit s.cfgH _ hw a hk _ ?_ ⟨_, (mem_glyphPixels s ch c _).mpr ⟨r, col, hr, hcol, rfl⟩, hcell⟩
  intro p hp hplots
  obtain ⟨r', col', hr', hcol', rfl⟩ := (mem_glyphPixels s ch c p).mp hp
  have hgh := s.font.gh.isLt
  obtain ⟨rfl, rfl⟩ := eq_of_cells_plotTo_same (by omega) (by omega) (by omega) (by omega) hcell hplots
  rfl

theorem bitAt_plot_glyphPixels_outside {s : State} (ch : Byte) (c : Colour) {a k : Nat} (hw : s.fb.wf = true)
    (hk : k < 8) (hout : ∀ r col, r < s.font.gh.toNat → col < s.font.gw.toNat →
      ¬ PlotsTo s.cfgH (s.cx + BitVec.ofNat 8 col) (s.cy + BitVec.ofNat 8 r) a k) :
    bitAt (plot s.cfgH s.fb (glyphPixels s ch c)) a k = bitAt s.fb a k := by
  refine bitAt_plot_miss s.cfgH _ hw a hk fun p hp => ?_
  obtain ⟨r, col, hr, hcol, rfl⟩ := (mem_glyphPixels s ch c p).mp hp
  exact hout r col hr hcol

/-! ## An encoded character -/

theorem renderChar_of_encoded {s : State} {ch : Byte} (c : Colour)
    (hencoded : glyphEncoded ch s.font.gh s.font.glen = true) :
    renderChar c s ch = { s with fb := plot s.cfgH s.fb (glyphPixels s ch c), cx := s.cx + s.font.gw } :=
  if_pos hencoded

/-- A row the store answers is the row rendered (R48). -/
theorem glyphRow_of_fontRead {s : State} {ch : Byte} {r : Nat} {row : HalfWord}
    (hread : fontRead s.fontRom s.font.fid (glyphRowIndex ch s.font.gh r) = some row) : glyphRow s ch r = row := by
  rw [glyphRow, hread, Option.getD_some]

/-- Settles O28: the answered character is rendered, and each bit of the framebuffer is addressed by one cell of its
box or by none. -/
theorem writeCharPaintsTheGlyphBox : Obligations.WriteCharPaintsTheGlyphBox := by
  intro s ch c rows hheight hw hwidth hlow hlen hrows
  have hencoded := (glyphEncoded_iff ch s.font.gh s.font.glen).mpr ⟨hlow, hlen⟩
  have hanswered : GlyphAnswered s ch := fun _ r hr hnone => Option.some_ne_none _ ((hrows r hr).symm.trans hnone)
  refine ⟨_, exec_writeChar_answered c hheight hanswered, ?_⟩
  rw [renderChar_of_encoded c hencoded]
  refine ⟨rfl, fun r col a k hr hcol hcell => ?_, fun a k hk hout => bitAt_plot_glyphPixels_outside ch c hw hk hout⟩
  rw [← isOn_cellColour (rows r) c (hcol.trans_le hwidth), ← glyphRow_of_fontRead (hrows r hr)]
  exact bitAt_plot_glyphPixels_cell ch c hw hwidth hr hcol hcell

end Sys2Proof.Machine

/-! The protocol sequencer's rules over operations and steps: what is emitted, where a data block stands, and how `ERR`
and `INIT_OK` end (R161, R162, R165, R166). -/

namespace Sys2Proof.Machine

/-! ## What an operation emits -/

/-- A completed operation appends the transactions of its script to the log, whatever is answered (R162). -/
theorem exec_emitted {i : Instr} {s t : State} (h : exec i s = .next t) :
    t.log.map Transaction.tx = s.log.map Transaction.tx ++ scriptOf i s := by
  rw [exec_log h, List.map_append, answered_tx]

/-- A script reads the height, the orientation and the framebuffer alone (R162). -/
theorem scriptOf_congr (i : Instr) {s s' : State} (hheight : s.cfgH = s'.cfgH) (hcom : s.cfgCom = s'.cfgCom)
    (hfb : s.fb = s'.fb) : scriptOf i s = scriptOf i s' := by
  cases i with
  | init => rw [scriptOf, scriptOf, hheight, hcom]
  | update => rw [scriptOf, scriptOf, hheight, hfb]
  | _ => rfl

theorem exec_new_transactions {i : Instr} {s t : State} (h : exec i s = .next t) :
    (t.log.map Transaction.tx).drop s.log.length = scriptOf i s := by
  rw [exec_emitted h, List.drop_left' (List.length_map _)]

/-- Settles O46: what an operation emits is its script, and the two scripts are one. -/
theorem scriptIgnoresErrorsAndAnswers : Obligations.ScriptIgnoresErrorsAndAnswers := by
  intro i s s' t t' hheight hcom hfb h h'
  rw [exec_new_transactions h, exec_new_transactions h']
  exact scriptOf_congr i hheight hcom hfb

/-! ## Windows before data -/

/-- In a list of transactions each data block stands right after the addressing window of height `h` (R75, R166). -/
def WindowedData (h : Byte) (txs : List Tx) : Prop :=
  ∀ before bs, before ++ [.data bs] <+: txs → (windowBytes h).map .cmd <:+ before

theorem windowsPrecedeData_iff {s : State} :
    WindowsPrecedeData s ↔ WindowedData s.cfgH (s.log.map Transaction.tx) := by
  constructor
  · rintro hs before bs ⟨after, hlog⟩
    obtain ⟨earlier, hbefore⟩ := hs before bs after (by simp [← hlog])
    exact ⟨earlier, hbefore.symm⟩
  · intro hs before bs after hlog
    obtain ⟨earlier, hbefore⟩ := hs before bs ⟨after, by simp [hlog]⟩
    exact ⟨earlier, hbefore.symm⟩

theorem windowedData_nil (h : Byte) : WindowedData h [] := fun before bs hprefix => by simp at hprefix

theorem windowedData_concat_iff {h : Byte} {txs : List Tx} {tx : Tx} :
    WindowedData h (txs ++ [tx]) ↔
      WindowedData h txs ∧ ∀ bs, tx = .data bs → (windowBytes h).map .cmd <:+ txs := by
  constructor
  · intro hall
    refine ⟨fun before bs hprefix => hall before bs (hprefix.trans (List.prefix_append txs [tx])), ?_⟩
    rintro bs rfl
    exact hall txs bs List.prefix_rfl
  · rintro ⟨htxs, hlast⟩ before bs hprefix
    rcases List.prefix_concat_iff.mp hprefix with heq | hinner
    · obtain ⟨rfl, htx⟩ := List.append_inj' heq rfl
      exact hlast bs (List.singleton_inj.mp htx).symm
    · exact htxs before bs hinner

theorem WindowedData.append {h : Byte} {txs us : List Tx} (htxs : WindowedData h txs) (hus : WindowedData h us) :
    WindowedData h (txs ++ us) := by
  induction us using List.reverseRecOn with
  | nil => rwa [List.append_nil]
  | append_singleton us u ih =>
    obtain ⟨hinit, hlast⟩ := windowedData_concat_iff.mp hus
    rw [← List.append_assoc]
    exact windowedData_concat_iff.mpr ⟨ih hinit, fun bs hu => (hlast bs hu).trans (List.suffix_append txs us)⟩

theorem windowedData_commands (h : Byte) (cmds : List Byte) : WindowedData h (cmds.map .cmd) := by
  induction cmds using List.reverseRecOn with
  | nil => exact windowedData_nil h
  | append_singleton cmds b ih =>
    rw [List.map_append]
    exact windowedData_concat_iff.mpr ⟨ih, fun _ => nofun⟩

/-- UPDATE_BODY's transactions: the window, then one block (R166, R167). -/
theorem windowedData_update (h : Byte) (bs : List Byte) : WindowedData h ((windowBytes h).map .cmd ++ [.data bs]) :=
  windowedData_concat_iff.mpr ⟨windowedData_commands h _, fun _ _ => List.suffix_rfl⟩

/-- Only INIT and UPDATE send data, both by UPDATE_BODY (R164, R167, R176). -/
theorem windowedData_scriptOf (i : Instr) (s : State) : WindowedData s.cfgH (scriptOf i s) := by
  cases i with
  | init =>
    rw [scriptOf, List.append_assoc]
    exact (windowedData_commands s.cfgH _).append (windowedData_update s.cfgH _)
  | update => exact windowedData_update s.cfgH _
  | displayOff => exact windowedData_commands s.cfgH [cbDisplayOff]
  | displayOn => exact windowedData_commands s.cfgH [cbDisplayOn]
  | setBrightness value => exact windowedData_commands s.cfgH [cbContrast, value]
  | invert v => exact windowedData_commands s.cfgH [inversionByte v]
  | flip v => exact windowedData_commands s.cfgH [comByte v]
  | mirror v => exact windowedData_commands s.cfgH [segByte v]
  | _ => exact windowedData_nil s.cfgH

theorem exec_windowsPrecedeData {i : Instr} {s t : State} (hs : WindowsPrecedeData s) (h : exec i s = .next t) :
    WindowsPrecedeData t := by
  obtain ⟨hheight, -, -⟩ := exec_sameConfig h
  rw [windowsPrecedeData_iff] at hs ⊢
  rw [exec_emitted h, hheight]
  exact hs.append (windowedData_scriptOf i s)

/-- Settles O48: the log is empty at reset, an operation appends its script, whose data block has its window, and
taking a host event writes neither the log nor the height. -/
theorem stepKeepsWindowsBeforeData : Obligations.StepKeepsWindowsBeforeData := by
  refine ⟨windowsPrecedeData_iff.mpr (windowedData_nil _), fun s t hs h => ?_⟩
  exact step_keeps (P := WindowsPrecedeData) (fun _ _ hu => hu) (fun _ _ hu => hu) (fun _ _ hu => hu)
    (fun _ _ _ => exec_windowsPrecedeData) hs h

/-! ## How ERR and INIT_OK end -/

/-- Every operation but CLEAR_ERRORS leaves in `ERR` the last failure of its script (R161, R227). -/
theorem exec_err {i : Instr} {s t : State} (h : exec i s = .next t) (hclear : i ≠ .clearErrors) :
    t.err = lastFailure s.err ((answered s (scriptOf i s)).map Transaction.status) := by
  obtain ⟨-, ⟨hscript, -, hdraw⟩ | ⟨rfl, rfl⟩ | ⟨-, -, rfl⟩ | ⟨x, y, rfl, rfl⟩ | ⟨gw, gh, glen, fid, rfl, -, rfl⟩ |
    ⟨rfl, rfl⟩ | ⟨rfl, rfl⟩ | ⟨rfl, -⟩⟩ := exec_next_cases h
  · obtain ⟨-, -, -, -, -, herr, -⟩ := hdraw.fields
    rw [herr, hscript, answered_nil, List.map_nil, lastFailure_nil]
  · rw [initBody_fields]
  · rw [emitAll_eq]
  · rfl
  · rfl
  · rfl
  · rfl
  · exact absurd rfl hclear

/-- The stickiness of `ERR` (R161): no status clears it, so no operation but CLEAR_ERRORS does. -/
theorem exec_err_ne_zero {i : Instr} {s t : State} (h : exec i s = .next t) (hclear : i ≠ .clearErrors)
    (herr : s.err ≠ 0) : t.err ≠ 0 :=
  exec_err h hclear ▸ lastFailure_ne_zero _ herr

/-- Settles O41, by the stickiness of `ERR`. -/
theorem onlyClearErrorsClears : Obligations.OnlyClearErrorsClears := fun _ _ _ h herr hzero =>
  by_contra fun hclear => exec_err_ne_zero h hclear herr hzero

/-- `INIT_OK` after INIT (R165). -/
theorem initBody_initOk_iff (s : State) : (initBody s).initOk = true ↔ (initBody s).err = 0 := by
  obtain ⟨-, -, -, -, hok⟩ := initBody_outcome s
  exact hok

/-- Settles O42, by the cases of a completed operation. -/
theorem onlyInitWritesInitOk : Obligations.OnlyInitWritesInitOk := by
  intro i s t h
  obtain ⟨-, ⟨hscript, -, hdraw⟩ | ⟨rfl, rfl⟩ | ⟨-, hinit, rfl⟩ | ⟨x, y, rfl, rfl⟩ |
    ⟨gw, gh, glen, fid, rfl, -, rfl⟩ | ⟨rfl, rfl⟩ | ⟨rfl, rfl⟩ | ⟨rfl, rfl⟩⟩ := exec_next_cases h
  · obtain ⟨-, -, -, -, -, -, hok, -⟩ := hdraw.fields
    refine ⟨fun _ => hok, ?_⟩
    rintro rfl
    simp [scriptOf] at hscript
  · exact ⟨fun hne => absurd rfl hne, fun _ => initBody_initOk_iff s⟩
  · rw [emitAll_eq]
    exact ⟨fun _ => rfl, fun hi => absurd hi hinit⟩
  all_goals exact ⟨fun _ => rfl, nofun⟩

/-- Settles O35: INIT records statuses only, so the earlier error stays, and `INIT_OK` is 0 with it. -/
theorem initFailsOnAnEarlierError : Obligations.InitFailsOnAnEarlierError := by
  intro s hheight herr
  have hexec : exec .init s = .next (initBody s) := fbGate_le _ hheight
  have hfails : (initBody s).err ≠ 0 := exec_err_ne_zero hexec nofun herr
  exact ⟨initBody s, hexec, Bool.eq_false_iff.mpr fun hok => hfails ((initBody_initOk_iff s).mp hok), hfails⟩

end Sys2Proof.Machine

/-! The facade's register operations, and a block constructed with a height above 64, whose `INIT_OK` they never see
set (R200 to R202, R222, R250). -/

namespace Sys2Proof.Machine

/-- Settles O37: both reads append one byte to the driven results, and clearing is the write of `ERR` alone. -/
theorem facadeReadsAndClears : Obligations.FacadeReadsAndClears := fun _ => ⟨rfl, rfl, rfl⟩

/-- A configuration error (R222, R250): a height above 64, and `INIT_OK` 0. -/
def HasConfigurationError (s : State) : Prop := 64 < s.cfgH.toNat ∧ s.initOk = false

/-- A completed operation of a block above 64 rows is not INIT, which is refused there (R250). -/
theorem ne_init_of_exec_next {i : Instr} {s t : State} (hheight : 64 < s.cfgH.toNat) (h : exec i s = .next t) :
    i ≠ .init := by
  rintro rfl
  obtain ⟨hgate, -⟩ := exec_next_cases h
  exact absurd (hgate rfl) (Nat.not_le.mpr hheight)

/-- No completed operation repairs a configuration error: the height stays (R240), and only INIT writes `INIT_OK`. -/
theorem exec_hasConfigurationError {i : Instr} {s t : State} (hs : HasConfigurationError s) (h : exec i s = .next t) :
    HasConfigurationError t := by
  obtain ⟨hheight, hok⟩ := hs
  obtain ⟨hcfg, -, -⟩ := exec_sameConfig h
  obtain ⟨hkeeps, -⟩ := onlyInitWritesInitOk i s t h
  exact ⟨hcfg ▸ hheight, (hkeeps (ne_init_of_exec_next hheight h)).trans hok⟩

/-- Settles O51: every completed operation keeps the configuration error, and taking a host event writes neither the
height nor `INIT_OK`. -/
theorem stepKeepsConfigurationError : Obligations.StepKeepsConfigurationError := fun _ _ hheight hok h =>
  step_keeps (P := HasConfigurationError) (fun _ _ hs => hs) (fun _ _ hs => hs) (fun _ _ hs => hs)
    (fun _ _ _ => exec_hasConfigurationError) ⟨hheight, hok⟩ h

end Sys2Proof.Machine

/-! The exception rules over operations and runs: which operations complete, what stands in `ERR` after them, and the
life of a block above 64 rows (R222, R226, R227, R250). -/

namespace Sys2Proof.Machine

/-! ## When an outcome has a next state -/

def Completes (r : Result) : Prop := ∃ t, r = .next t

theorem completes_next (s : State) : Completes (.next s) := ⟨s, rfl⟩

theorem not_completes_refused (e : Refusal) : ¬ Completes (.refused e) := nofun

theorem completes_ite_refused_iff {p : Prop} [Decidable p] {e : Refusal} {u : State} :
    Completes (if p then .refused e else .next u) ↔ ¬ p := by
  constructor
  · rintro ⟨t, h⟩
    obtain ⟨hp, -⟩ := ite_refused_next h
    exact hp
  · exact fun hp => ⟨u, if_neg hp⟩

theorem completes_fbGate_iff {s : State} {r : Result} (hheight : s.cfgH.toNat ≤ 64) :
    Completes (fbGate s r) ↔ Completes r := by rw [fbGate_le r hheight]

/-- A string write completes exactly on a terminated string of answered characters (R51, R226 (4), (6)). -/
theorem completes_writeStream_iff (c : Colour) (s : State) : Completes (writeStream c s) ↔ StringSupplied s := by
  constructor
  · intro h
    cases hsplit : splitString s.stream with
    | none =>
      rw [writeStream_unterminated c (splitString_eq_none.mp hsplit)] at h
      exact absurd h (not_completes_refused _)
    | some parts =>
      obtain ⟨hzero, hstream⟩ := splitString_eq_some.mp hsplit
      refine ⟨parts.1, parts.2, hzero, hstream, fun ch hch => by_contra fun hno => ?_⟩
      rw [writeStream_unanswered c hzero hstream hch hno] at h
      exact not_completes_refused _ h
  · rintro ⟨chars, rest, hzero, hstream, hanswered⟩
    exact ⟨_, writeStream_answered c hzero hstream hanswered⟩

/-! ## The contract of an operation -/

/-- Past the gate of R250 an operation completes exactly on what the contract asks the host to supply (R226, R255). -/
theorem completes_exec_iff_supplied {i : Instr} {s : State} (hgate : touchesFb i = true → s.cfgH.toNat ≤ 64) :
    Completes (exec i s) ↔ Supplied i s := by
  cases i with
  | init | update | clean | fill | drawPixel | lineH | lineV | rect =>
    exact iff_of_true ((completes_fbGate_iff (hgate rfl)).mpr (completes_next _)) trivial
  | writeString => exact (completes_fbGate_iff (hgate rfl)).trans (completes_writeStream_iff .on s)
  | writeStringInv => exact (completes_fbGate_iff (hgate rfl)).trans (completes_writeStream_iff .off s)
  | drawImage | waveform =>
    exact (completes_fbGate_iff (hgate rfl)).trans (completes_ite_refused_iff.trans Nat.not_lt)
  | writeChar ch c =>
    rw [Supplied, ← glyphUnanswered_eq_false, ← Bool.not_eq_true]
    exact (completes_fbGate_iff (hgate rfl)).trans completes_ite_refused_iff
  | setFont gw gh glen fid => exact completes_ite_refused_iff.trans Nat.not_lt
  | _ => exact iff_of_true (completes_next _) trivial

/-- Settles O39: a completed operation is past the gate, and past the gate completing is being supplied. -/
theorem completesExactlyWithinTheContract : Obligations.CompletesExactlyWithinTheContract := by
  intro i s
  constructor
  · rintro ⟨t, h⟩
    obtain ⟨hgate, -⟩ := exec_next_cases h
    exact ⟨hgate, (completes_exec_iff_supplied hgate).mp ⟨t, h⟩⟩
  · rintro ⟨hgate, hsupplied⟩
    exact (completes_exec_iff_supplied hgate).mpr hsupplied

/-! ## Above 64 rows -/

theorem exec_configError {i : Instr} {s : State} (hheight : 64 < s.cfgH.toNat) (htouch : touchesFb i = true) :
    exec i s = .refused .configError := by
  cases i with
  | setCursor | displayOff | displayOn | setBrightness | invert | flip | mirror | setFont | isInitialized
  | getLastError | clearErrors => cases htouch
  | _ => exact fbGate_gt _ hheight

/-- Away from the framebuffer the contract asks for a legal operand and nothing else (R226 (2)). -/
theorem supplied_of_wellFormed {i : Instr} (s : State) (htouch : touchesFb i = false) (hwf : i.wellFormed = true) :
    Supplied i s := by
  cases i with
  | setFont gw gh glen fid => exact of_decide_eq_true (p := gw.toNat ≤ 16) hwf
  | setCursor | displayOff | displayOn | setBrightness | invert | flip | mirror | isInitialized | getLastError
  | clearErrors => trivial
  | _ => cases htouch

/-- Settles O38: the gate refuses what touches the framebuffer, and what does not is within the contract. -/
theorem configurationErrorGate : Obligations.ConfigurationErrorGate := by
  intro i s hheight
  refine ⟨exec_configError hheight, fun htouch hwf => (completesExactlyWithinTheContract i s).mpr ⟨?_, ?_⟩⟩
  · simp [htouch]
  · exact supplied_of_wellFormed s htouch hwf

/-! ## The last failure -/

/-- Settles O40: the new transactions are the answered script, and `ERR` is its last failure. -/
theorem errHoldsTheLastFailure : Obligations.ErrHoldsTheLastFailure := fun i s _ h hclear =>
  ⟨answered s (scriptOf i s), exec_log h, exec_err h hclear⟩

/-! ## Runs -/

/-- What every step keeps holds at the end of every run. -/
theorem run_keeps {P : State → Prop} (hstep : ∀ s t, P s → step s = .next t → P t) {n : Nat} {s t : State}
    (hs : P s) (h : Sys2Proof.core.run n s = .next t) : P t := by
  induction n generalizing s with
  | zero =>
    cases h
    exact hs
  | succ n ih =>
    cases hu : step s with
    | next u =>
      rw [core_run_next n hu] at h
      exact ih (hstep s u hs hu) h
    | fault r => cases r
    | refused r =>
      rw [core_run_refused n hu] at h
      cases h

/-- Settles O49, from O51: the constructed block has a configuration error, and keeps it over every run. -/
theorem configurationErrorNeverInitializes : Obligations.ConfigurationErrorNeverInitializes := by
  intro h com addr s events n t hheight hconstruct
  obtain ⟨-, -, rfl⟩ := construct_next hconstruct
  refine ⟨if_pos hheight, fun hrun => ?_⟩
  obtain ⟨-, hok⟩ : HasConfigurationError t :=
    run_keeps (fun u v ⟨hu, huok⟩ => stepKeepsConfigurationError u v hu huok) ⟨hheight, rfl⟩ hrun
  exact hok

end Sys2Proof.Machine

/-! Construction register by register, and the boot that follows it when the transport answers every transaction with
0 (R241, R256). -/

namespace Sys2Proof.Machine

/-! ## Construction -/

theorem construct_illegal {h : Byte} (com : Option ComPins) (addr : Option Byte)
    (hbad : h.toNat = 0 ∨ h.toNat % 8 ≠ 0) : construct h com addr = .refused .badHeight := if_pos hbad

/-- Settles O1: a legal height constructs, `ERR` is the sentinel exactly above 64 rows, and each framebuffer byte is
its draw. -/
theorem constructionSetsEveryRegister : Obligations.ConstructionSetsEveryRegister := by
  refine ⟨cfgErr_ne_zero, fun h com addr => ⟨construct_illegal com addr, fun hpos hmul => ?_⟩⟩
  exact ⟨_, construct_legal h com addr hpos hmul, rfl, rfl, rfl, fun hgt => if_pos hgt,
    fun hle => errAfterConstruction_eq_zero hle, rfl, rfl, rfl, rfl, read_drawnFb _, rfl, rfl⟩

/-! ## A script answered by zeros -/

/-- A script no longer than the zeros the transport has ready is answered by zeros (R160, log 4). -/
theorem status_eq_zero_of_mem_answered {s : State} {ts : List Tx} {n : Nat} (hzeros : s.answers = List.replicate n 0)
    (hlength : ts.length ≤ n) {e : Transaction} (he : e ∈ answered s ts) : e.status = 0 := by
  obtain ⟨j, hj, rfl⟩ := List.mem_mapIdx.mp he
  have hstatus : s.answers[j]? = some 0 := by
    rw [hzeros, List.getElem?_replicate_of_lt (Nat.lt_of_lt_of_le hj hlength)]
  simp only [statusAt, hstatus]

/-- An operation whose transactions all succeed leaves `ERR` (R161). -/
theorem exec_err_of_zeros {i : Instr} {s t : State} {n : Nat} (h : exec i s = .next t) (hclear : i ≠ .clearErrors)
    (hzeros : s.answers = List.replicate n 0) (hlength : (scriptOf i s).length ≤ n) : t.err = s.err := by
  rw [exec_err h hclear]
  refine lastFailure_zeros s.err _ fun st hst => ?_
  obtain ⟨e, he, rfl⟩ := List.mem_map.mp hst
  exact status_eq_zero_of_mem_answered hzeros hlength he

/-! ## The boot -/

/-- INIT's script is 37 command bytes and then the cleared framebuffer as one block (R163, R164). -/
theorem scriptOf_init_eq (s : State) : ∃ cmds : List Byte, cmds.length = 37 ∧
    scriptOf .init s = cmds.map .cmd ++ [.data (List.replicate (16 * s.cfgH.toNat) 0x00)] :=
  ⟨initBytes s.cfgH s.cfgCom ++ windowBytes s.cfgH, rfl, by rw [List.map_append]; rfl⟩

/-- A log that is INIT's script (R256): 37 commands, and the block of `N` zero bytes after them. -/
theorem log_of_init_script {s t : State} (hlog : t.log.map Transaction.tx = scriptOf .init s) :
    (t.log.take 37).all (fun e => isCmd e.tx) = true ∧ t.log.length = 38 ∧
    (t.log.drop 37).map Transaction.tx = [.data (List.replicate (16 * s.cfgH.toNat) 0x00)] := by
  obtain ⟨cmds, hcmds, hscript⟩ := scriptOf_init_eq s
  have hlength : (cmds.map Tx.cmd).length = 37 := by rw [List.length_map, hcmds]
  refine ⟨?_, ?_, ?_⟩
  · have htake : (t.log.take 37).map Transaction.tx = cmds.map .cmd := by
      rw [List.map_take, hlog, hscript, List.take_left' hlength]
    calc (t.log.take 37).all (fun e => isCmd e.tx)
        = ((t.log.take 37).map Transaction.tx).all isCmd := by rw [List.all_map]; rfl
      _ = true := by rw [htake]; simp [isCmd]
  · rw [← List.length_map Transaction.tx, hlog, scriptOf_init_length]
  · rw [List.map_drop, hlog, hscript, List.drop_left' hlength]

/-- INIT leaves nothing listed of a framebuffer of `N` bytes (R92, R164). -/
theorem initBody_fb_eq_nil {s : State} (hbelow : s.fb.below (16 * s.cfgH.toNat) = true) : (initBody s).fb = [] :=
  (initBody_fb s).trans (Memory.load_zero s.fb _ hbelow)

/-- INIT leaves the text cursor (R32). -/
theorem initBody_cursor (s : State) : (initBody s).cx = s.cx ∧ (initBody s).cy = s.cy := by
  rw [initBody_fields]
  exact ⟨rfl, rfl⟩

/-- A block just constructed, with 38 zero statuses ready for the transactions of INIT (R241, R256). -/
def bootBlock (h : Byte) (com : ComPins) (addr : Byte) : State :=
  { State.constructed h com addr with answers := List.replicate 38 0 }

theorem bootBlock_err {h : Byte} (com : ComPins) (addr : Byte) (hheight : h.toNat ≤ 64) :
    (bootBlock h com addr).err = 0 := errAfterConstruction_eq_zero hheight

/-- Settles O36: INIT completes on the constructed block, its log is INIT's script, and zeros leave `ERR` at the 0 of
a construction of height up to 64. -/
theorem successfulBoot : Obligations.SuccessfulBoot := by
  intro h com addr s hconstruct hheight
  obtain ⟨-, -, rfl⟩ := construct_next hconstruct
  generalize com.getD .altNoremap = pins, addr.getD Config.busAddrDefault = bus
  have hexec : exec .init (bootBlock h pins bus) = .next (initBody (bootBlock h pins bus)) := fbGate_le _ hheight
  obtain ⟨hcmds, hlength, hdata⟩ := log_of_init_script (exec_emitted hexec)
  have hfb : (initBody (bootBlock h pins bus)).fb = [] := initBody_fb_eq_nil (below_drawnFb _)
  have herr : (initBody (bootBlock h pins bus)).err = 0 :=
    (exec_err_of_zeros hexec nofun rfl (scriptOf_init_length _).le).trans (bootBlock_err pins bus hheight)
  obtain ⟨hcx, hcy⟩ := initBody_cursor (bootBlock h pins bus)
  exact ⟨_, hexec, hcmds, hlength, hdata, hfb, (initBody_initOk_iff _).mpr herr, herr, hcx, hcy⟩

end Sys2Proof.Machine
